-- ==== Sys2Proof/Word.lean ====
section
/-! DEFINITION. The one word type of the machine: registers, memory cells, immediates and jump operands are all
unsigned bytes (spec rule R7, and `REG_BITS` = 8 in rule R5). -/

namespace Sys2Proof

/-- An unsigned 8-bit value (rule R7). -/
abbrev Byte := BitVec 8

end Sys2Proof
end

