-- ==== Sys2Proof/Config.lean ====
section
/-! DEFINITION. What the spec fixes for this hardware (00_scope.md, rules R4 to R6). The spec leaves no value open
(93_implementation_defined.md: no behaviour of this machine is `any value`), so there is no free value here. -/

namespace Sys2Proof

/-- `MEM_SIZE` of the stock machine (rule R4). A machine's own size is a field of its state. -/
def Config.stockMemSize : Nat := 1024

/-- `bitlen n`: the number of bits of `n` written in binary (rule R6), for `n` at least 1. -/
def Config.bitlen (n : Nat) : Nat := Nat.log2 n + 1

/-- `PC_BITS` of a machine with `memSize` cells (rule R6): the width of `pc` and of `stop_addr`. -/
def Config.pcBits (memSize : Nat) : Nat := max 8 (Config.bitlen memSize)

end Sys2Proof
end

