-- ==== Sys2Proof/Syntax.lean ====
section
/-! DEFINITION. The decoded instructions, one constructor per row of spec/opcode_table.json (rules R9, R58). -/

namespace Sys2Proof

/-- A decoded instruction. Operands stand as they do in memory, whole bytes: the decoder validates nothing about
them (rule R57), and a register index may be any of 0 to 255 (rule R54). -/
inductive Instr where
  /-- LoadImmediate(register_index, immediate_byte), rule R85. -/
  | ldi (reg imm : Byte)
  /-- AddRegisters(dest_index, src_index), rule R86. -/
  | add (dst src : Byte)
  /-- Jump(target_address), rule R90. -/
  | jmp (addr : Byte)
  /-- SubtractRegisters(dest_index, src_index), rule R87. -/
  | sub (dst src : Byte)
  /-- Halt, rule R91. -/
  | hlt
  /-- Unrecognized, rule R92: the table's default row. DESIGN CHOICE (log entry 5): it carries the opcode byte it
  was decoded from, which no meaning reads, so that encoding it gives that byte back. -/
  | unrecognized (op : Byte)
  deriving DecidableEq, Repr

/-- The tag of the instruction variant an opcode byte selects (rules R58, R73). -/
inductive Opcode where
  | ldi | add | jmp | sub | hlt | unrecognized
  deriving DecidableEq, Repr

end Sys2Proof
end

