-- ==== Sys2Proof/WellFormed.lean ====
section
/-! DEFINITION. Which terms of `Instr` are instructions some memory bytes decode to. Every operand byte is legal at
decode (rules R55 to R57), so the one check is on the default row: its byte is none of the five opcodes (R59). -/

namespace Sys2Proof

/-- The five opcode bytes that rule R59 excludes from the default row. -/
def Instr.knownOpcodes : List Byte := [0x01#8, 0x02#8, 0x03#8, 0x04#8, 0xFF#8]

/-- A well-formed instruction: `unrecognized` carries a byte that is no known opcode (rules R57, R59). -/
def Instr.wf : Instr → Bool
  | .ldi _ _ => true
  | .add _ _ => true
  | .jmp _ => true
  | .sub _ _ => true
  | .hlt => true
  | .unrecognized op => !(Instr.knownOpcodes.contains op)

end Sys2Proof
end

