-- ==== Sys2Proof/Decode.lean ====
section
/-! DEFINITION. The decoder (rules R72 to R76) and, after it, the encoder (rules R50 to R58). The decoder is one pure
function of a way to read a byte and of the program counter: memory and a plain list of bytes are two such ways. -/

namespace Sys2Proof

/-! ## Decoding -/

/-- What decoding answers (rule R76): an instruction, or the first address it had to read that does not exist. -/
inductive Decoded where
  | instr (i : Instr)
  /-- The `OutOfRange(addr)` of rule R76: the decoder's rejection, which stops the machine (rule R103). -/
  | outOfRange (addr : Nat)
  deriving DecidableEq, Repr

/-- Opcode classification: exact match on all 8 bits (rules R58, R73). -/
def classify (op : Byte) : Opcode :=
  if op = 0x01#8 then .ldi
  else if op = 0x02#8 then .add
  else if op = 0x03#8 then .jmp
  else if op = 0x04#8 then .sub
  else if op = 0xFF#8 then .hlt
  else .unrecognized

/-- The length in bytes that the opcode alone fixes (rules R50, R61). -/
def Opcode.length : Opcode → Nat
  | .ldi => 3
  | .add => 3
  | .jmp => 2
  | .sub => 3
  | .hlt => 1
  | .unrecognized => 1

/-- One of the decoder's reads: go on with the byte at `a`, or end with `OutOfRange(a)` (rules R33, R72, R74). -/
def fetchByte (read : Nat → Option Byte) (a : Nat) (k : Byte → Decoded) : Decoded :=
  match read a with
  | none => .outOfRange a
  | some b => k b

/-- The decoder (rules R72 to R75): the opcode at `pc` first, then as many operand bytes as it needs, ascending. -/
def decodeFrom (read : Nat → Option Byte) (pc : Nat) : Decoded :=
  fetchByte read pc fun op =>
    match classify op with
    | .ldi => fetchByte read (pc + 1) fun a => fetchByte read (pc + 2) fun b => .instr (.ldi a b)
    | .add => fetchByte read (pc + 1) fun a => fetchByte read (pc + 2) fun b => .instr (.add a b)
    | .sub => fetchByte read (pc + 1) fun a => fetchByte read (pc + 2) fun b => .instr (.sub a b)
    | .jmp => fetchByte read (pc + 1) fun a => .instr (.jmp a)
    | .hlt => .instr .hlt
    | .unrecognized => .instr (.unrecognized op)

/-- The decoder on a list of bytes, the opcode first (rule R31). An address here is a place in the list. -/
def decodeBytes (bytes : List Byte) : Decoded :=
  decodeFrom (fun a => bytes[a]?) 0

/-! ## Encoding -/

/-- The bytes of an instruction in ascending address order (rules R31, R50 to R53, R58). -/
def encode : Instr → List Byte
  | .ldi reg imm => [0x01#8, reg, imm]
  | .add dst src => [0x02#8, dst, src]
  | .jmp addr => [0x03#8, addr]
  | .sub dst src => [0x04#8, dst, src]
  | .hlt => [0xFF#8]
  | .unrecognized op => [op]

/-- The opcode tag of an instruction (rule R58). -/
def Instr.opcode : Instr → Opcode
  | .ldi _ _ => .ldi
  | .add _ _ => .add
  | .jmp _ => .jmp
  | .sub _ _ => .sub
  | .hlt => .hlt
  | .unrecognized _ => .unrecognized

/-! ## The opcode table's numbering of bits -/

/-- The three bytes of an instruction whose first `nbits` bits are `w`, bit 0 the least significant bit of the first
byte, every bit above `nbits` zero: the longest instruction has three bytes (rule R50). -/
def tableBytes (nbits w : Nat) : List Byte :=
  let v := w % 2 ^ nbits
  [BitVec.ofNat 8 v, BitVec.ofNat 8 (v / 256), BitVec.ofNat 8 (v / 65536)]

/-- What the decoder reads from a word numbered as spec/opcode_table.json numbers it. -/
def decodeTableWord (nbits w : Nat) : Option Instr :=
  match decodeBytes (tableBytes nbits w) with
  | .instr i => some i
  | .outOfRange _ => none

/-! ## Assembly notation -/

/-- The assembly text of an instruction in the spec's own notation (rule R62), every number in decimal. -/
def Instr.asm : Instr → String
  | .ldi reg imm => "LDI r" ++ toString reg.toNat ++ ", " ++ toString imm.toNat
  | .add dst src => "ADD r" ++ toString dst.toNat ++ ", r" ++ toString src.toNat
  | .jmp addr => "JMP " ++ toString addr.toNat
  | .sub dst src => "SUB r" ++ toString dst.toNat ++ ", r" ++ toString src.toNat
  | .hlt => "HLT"
  | .unrecognized op => ".byte " ++ toString op.toNat

end Sys2Proof
end

