-- ==== Sys2Proof/Machine/State.lean ====
section
/-! DEFINITION. The whole state of the machine (10_state.md), the reasons a step can end without a next state, and the
state after reset. -/

namespace Sys2Proof.Machine

/-- `run_state` (rule R18). -/
inductive RunState where
  | running
  | stopped
  deriving DecidableEq, Repr

/-- `stop_reason` (rule R19): why the machine is STOPPED, `none` while it is RUNNING. -/
inductive StopReason where
  | none
  | halt
  | unrecognized
  | outOfRange
  deriving DecidableEq, Repr

/-- Memory as data: the cells that do not hold 0, addresses strictly rising. -/
abbrev Memory := List Host.Cell

/-- Every piece of state the spec gives the machine (the table at the head of 10_state.md), and its one parameter. -/
structure State where
  /-- `MEM_SIZE` (rule R4): fixed for the lifetime of the machine, changed by no step. Log entry 1. -/
  memSize : Nat
  /-- The registers `x[0]` to `x[3]` (rule R10); `NUM_REGS` is 4 and no parameter (rule R5). -/
  x : Vector Byte 4
  /-- The program counter (rules R6, R13). Log entry 2. -/
  pc : Nat
  /-- Memory (rule R22). -/
  mem : Memory
  /-- `run_state` (rule R18). -/
  runState : RunState
  /-- `stop_reason` (rule R19). -/
  stopReason : StopReason
  /-- `stop_addr` (rule R20). -/
  stopAddr : Nat
  deriving DecidableEq, Repr

/-- Why the model has no next state. The spec's three stops are next states, in which `stopReason` says which. -/
inductive Fault where
  /-- Raised by `step` alone, on a STOPPED machine, which has no cycle and no other step (rule R71). DESIGN CHOICE,
  safe: no claim about a next state can be proved from it. Log entry 3. -/
  | stopped
  deriving DecidableEq, Repr

/-- Instructions without a meaning. -/
inductive Refusal where
  /-- Raised by an arm of `exec` that has no meaning yet; safe. No arm of this model raises it. -/
  | notModelled (mnemonic : String)
  deriving DecidableEq, Repr

/-- A machine of `memSize` cells as it is created (rules R12, R29, R120): memory and registers zero-filled, `pc` 0,
RUNNING, no stop recorded. The image load is `State.init`. -/
def State.created (memSize : Nat) : State where
  memSize := memSize
  x := Vector.replicate 4 0#8
  pc := 0
  mem := []
  runState := .running
  stopReason := .none
  stopAddr := 0

/-- The stock machine after reset with the empty image, which rule R25 allows. How a program comes to stand in memory
is log entry 8. -/
def State.reset : State := State.created Config.stockMemSize

end Sys2Proof.Machine
end

