-- ==== Sys2Proof/Machine/Operands.lean ====
section
/-! DEFINITION. The operand forms (rules R54 to R56): what an operand byte names. -/

namespace Sys2Proof.Machine

/-- The register an operand byte names (rule R54): the whole byte, not masked; `none` for 4 to 255. -/
def regIndex (i : Byte) : Option (Fin 4) :=
  if h : i.toNat < 4 then some ⟨i.toNat, h⟩ else none

/-- The immediate operand (rule R55): the byte itself. -/
def immediate (imm : Byte) : Byte := imm

/-- The jump target (rule R56): the operand byte's value, absolute, zero-extended. -/
def jumpTarget (addr : Byte) : Nat := addr.toNat

end Sys2Proof.Machine
end

