-- ==== Sys2Proof/Machine/Ops.lean ====
section
/-! DEFINITION. The named operations over the state: registers, `pc`, memory, decoding at `pc`, and the stop, which is
the machine's whole exception mechanism (60_exceptions.md). There is no return from a stop (rule R111). -/

namespace Sys2Proof.Machine

/-! ## Registers and the program counter -/

/-- Read register `i` (rule R8). -/
def State.reg (s : State) (i : Fin 4) : Byte := s.x[i]

/-- Write register `i` (rule R8). -/
def State.setReg (s : State) (i : Fin 4) (v : Byte) : State := { s with x := s.x.set i v }

/-- `pc <- pc + n` (rule R14). -/
def State.advance (s : State) (n : Nat) : State := { s with pc := s.pc + n }

/-- `pc <- t` (rules R14, R90): no check of the target. -/
def State.jumpTo (s : State) (t : Nat) : State := { s with pc := t }

/-- Write the register an operand byte names; nothing where it names none (rule R88). -/
def State.writeOperand (s : State) (i v : Byte) : State :=
  match regIndex i with
  | some r => s.setReg r v
  | none => s

/-- `x[dst] <- f x[dst] x[src]`, both read before the write (rules R86, R87, R128); nothing where either operand byte
names no register (rule R88). -/
def State.combine (s : State) (f : Byte → Byte → Byte) (dst src : Byte) : State :=
  match regIndex dst, regIndex src with
  | some d, some r => s.setReg d (f (s.reg d) (s.reg r))
  | _, _ => s

/-! ## Memory -/

/-- `MemRead(a, 1)` (rule R33): the bound is checked before the cell is touched; `none` is `OutOfRange(a)`. -/
def State.memRead (s : State) (a : Nat) : Option Byte :=
  if a < s.memSize then some (Memory.read s.mem a) else none

/-- `MemWrite(a, 1, v)` (rule R8), which no instruction performs (rule R34). It is defined for `a < MEM_SIZE` only;
elsewhere this writes nothing. Log entry 14. -/
def State.memWrite (s : State) (a : Nat) (v : Byte) : State :=
  if a < s.memSize then { s with mem := Memory.write s.mem a v } else s

/-- Write bytes at ascending addresses from `a` (rule R121). -/
def State.placeBytes (s : State) (a : Nat) : List Byte → State
  | [] => s
  | b :: bs => (s.memWrite a b).placeBytes (a + 1) bs

/-! ## Decoding, and stopping -/

/-- The decoder at `pc` (rule R76): a function of memory and `pc` alone. -/
def State.decoded (s : State) : Decoded := decodeFrom s.memRead s.pc

/-- Stop entry (rule R108): exactly the three status fields are written. -/
def State.stop (s : State) (reason : StopReason) (addr : Nat) : State :=
  { s with runState := .stopped, stopReason := reason, stopAddr := addr }

end Sys2Proof.Machine
end

