-- ==== Sys2Proof/Machine/Control.lean ====
section
/-! DEFINITION. Control transfer and the two stops the executor raises (42_control.md). -/

namespace Sys2Proof.Machine

/-- JMP (rule R90): `pc` only, no check of the target. -/
def execJmp (addr : Byte) (s : State) : Host.Outcome State Fault Refusal :=
  .next (s.jumpTo (jumpTarget addr))

/-- HLT (rules R91, R101): the HALT stop, reporting `pc`. -/
def execHlt (s : State) : Host.Outcome State Fault Refusal :=
  .next (s.stop .halt s.pc)

/-- An unrecognised opcode (rules R92, R102): the UNRECOGNIZED stop, reporting `pc`; the byte is not recorded. -/
def execUnrecognized (_op : Byte) (s : State) : Host.Outcome State Fault Refusal :=
  .next (s.stop .unrecognized s.pc)

end Sys2Proof.Machine
end

