-- ==== Sys2Proof/Machine/Flags.lean ====
section
/-! DEFINITION. The arithmetic of ADD and SUB (rule R89). The machine has no flags (rule R17): carry and borrow are
discarded, so each operation is its 8-bit result and nothing else. -/

namespace Sys2Proof.Machine

/-- `(a + b) mod 256` (rules R86, R89). -/
def sumMod256 (a b : Byte) : Byte := a + b

/-- `(a - b) mod 256`, the non-negative remainder (rules R7, R87, R89). -/
def differenceMod256 (a b : Byte) : Byte := a - b

end Sys2Proof.Machine
end

