-- ==== Sys2Proof/Machine/RegisterOps.lean ====
section
/-! DEFINITION. The three register operations (41_register_ops.md). They raise nothing: what their decode can raise
is the decoder's (rules R74, R103). -/

namespace Sys2Proof.Machine

/-- LDI (rule R85), a silent no-op on data when `reg` names no register (rule R88). -/
def execLdi (reg imm : Byte) (s : State) : Host.Outcome State Fault Refusal :=
  .next ((s.writeOperand reg (immediate imm)).advance 3)

/-- ADD (rule R86), a silent no-op on data when an operand names no register (rule R88). -/
def execAdd (dst src : Byte) (s : State) : Host.Outcome State Fault Refusal :=
  .next ((s.combine sumMod256 dst src).advance 3)

/-- SUB (rule R87): the destination is the minuend; a silent no-op as ADD (rule R88). -/
def execSub (dst src : Byte) (s : State) : Host.Outcome State Fault Refusal :=
  .next ((s.combine differenceMod256 dst src).advance 3)

end Sys2Proof.Machine
end

