-- ==== Sys2Proof/Machine/Dispatch.lean ====
section
/-! DEFINITION. The executor (rule R77): one arm per variant, exhaustive, no default arm. -/

namespace Sys2Proof.Machine

def exec (i : Instr) (s : State) : Host.Outcome State Fault Refusal :=
  match i with
  | .ldi reg imm => Sys2Proof.Machine.execLdi reg imm s
  | .add dst src => Sys2Proof.Machine.execAdd dst src s
  | .jmp addr => Sys2Proof.Machine.execJmp addr s
  | .sub dst src => Sys2Proof.Machine.execSub dst src s
  | .hlt => Sys2Proof.Machine.execHlt s
  | .unrecognized op => Sys2Proof.Machine.execUnrecognized op s

end Sys2Proof.Machine
end

