-- ==== Sys2Proof/Machine/Step.lean ====
section
/-! DEFINITION. One step is one whole cycle (rules R70, R78): decode at `pc`, then execute. -/

namespace Sys2Proof.Machine

/-- One cycle. A STOPPED machine has none (rule R71; log entry 3). A decode read that is out of range stops the
machine (rule R103); otherwise the executor answers (rule R77). -/
def step (s : State) : Host.Outcome State Fault Refusal :=
  match s.runState with
  | .stopped => .fault .stopped
  | .running =>
    match s.decoded with
    | .outOfRange a => .next (s.stop .outOfRange a)
    | .instr i => exec i s

/-- `s` with an instruction, numbered as spec/opcode_table.json numbers it, stored at `pc`, where `step` decodes.
Only memory changes. Log entry 8. -/
def State.withFetchWord (s : State) (nbits w : Nat) : State :=
  s.placeBytes s.pc (tableBytes nbits w)

end Sys2Proof.Machine
end

