-- ==== Sys2Proof/Machine/Boundary.lean ====
section
/-! DEFINITION. The host's side of the machine (10_state.md section 7): `Init`, `Run`, `Observe`, and the numeric codes
of the status fields. None of these is a step. -/

namespace Sys2Proof.Machine

/-- `Init(image)` (rules R25, R120, R121): create, zero-fill, load at address 0. It has no result for an image longer
than memory, and none for a memory of no cells (rule R4). -/
def State.init (memSize : Nat) (image : List Byte) : Option State :=
  if 1 ≤ memSize ∧ image.length ≤ memSize then some ((State.created memSize).placeBytes 0 image) else none

/-- `n` cycles, one after another (rule R70). -/
def runCycles : Nat → State → Host.Outcome State Fault Refusal
  | 0, s => .next s
  | n + 1, s => match step s with
    | .next t => runCycles n t
    | .fault r => .fault r
    | .refused r => .refused r

/-- `Run` (rules R26, R80), for at most `fuel` cycles: `some t` is a run that ended in the STOPPED state `t`. `none` is
no state of the machine: the fuel ran out, or there was no step (rule R81; log entry 15). -/
def runLoop : Nat → State → Option State
  | 0, s => match s.runState with
    | .stopped => some s
    | .running => none
  | n + 1, s => match s.runState with
    | .stopped => some s
    | .running => match step s with
      | .next t => runLoop n t
      | .fault _ => none
      | .refused _ => none

/-- What the host reads after a stop (rule R27); memory may be shown, since it never changes (rule R27). -/
structure Observation where
  x : Vector Byte 4
  pc : Nat
  stopReason : StopReason
  stopAddr : Nat
  mem : Memory
  deriving DecidableEq, Repr

/-- `Observe` (rule R27): nothing while the machine is RUNNING. -/
def State.observe (s : State) : Option Observation :=
  match s.runState with
  | .running => none
  | .stopped => some { x := s.x, pc := s.pc, stopReason := s.stopReason, stopAddr := s.stopAddr, mem := s.mem }

/-- The 1-bit code of `run_state` (rule R18). -/
def RunState.code : RunState → BitVec 1
  | .running => 0#1
  | .stopped => 1#1

/-- The 2-bit code of `stop_reason` (rules R19, R100). -/
def StopReason.code : StopReason → BitVec 2
  | .none => 0#2
  | .halt => 1#2
  | .unrecognized => 2#2
  | .outOfRange => 3#2

end Sys2Proof.Machine
end

