-- ==== Sys2Proof/Safety.lean ====
section
/-! DEFINITION. What claims about runs are stated in: how a run ended, the invariant of the machine's states, which
registers an instruction reaches, and the spec's own pseudocode of a whole cycle. -/

namespace Sys2Proof.Machine

/-! ## How a run ended (93_implementation_defined.md section 3) -/

/-- The normal end of a run: STOPPED with HALT (rule R82). -/
def State.completed (s : State) : Bool :=
  s.runState = .stopped && s.stopReason = .halt

/-- The two error stops, which refute a claim of normal completion (rules R82, R100). In this model they are next
states, so a claim that a run is safe says `faulted = false`; the absence of a `Fault` does not say it. -/
def State.faulted (s : State) : Bool :=
  s.runState = .stopped && (s.stopReason = .unrecognized || s.stopReason = .outOfRange)

/-! ## The invariant -/

/-- The stop report says what decoding at `pc` finds (rules R20, R101 to R103). -/
def State.stopReportTrue (s : State) : Prop :=
  match s.stopReason with
  | .none => True
  | .halt => s.decoded = .instr .hlt ∧ s.stopAddr = s.pc
  | .unrecognized => (∃ op, s.decoded = .instr (.unrecognized op)) ∧ s.stopAddr = s.pc
  | .outOfRange => s.decoded = .outOfRange s.stopAddr

/-- The invariant of the states a machine goes through. -/
structure State.Inv (s : State) : Prop where
  /-- `MEM_SIZE >= 1` (rule R4). -/
  memSize_pos : 1 ≤ s.memSize
  /-- Memory is in canonical form. -/
  mem_wf : Memory.wf s.mem
  /-- Every listed cell exists (rule R22). -/
  mem_inRange : ∀ c ∈ s.mem, c.1 < s.memSize
  /-- `pc` never wraps (rule R16). -/
  pc_le : s.pc ≤ max s.memSize 255
  /-- `stop_addr` has the range of `pc` (rule R20). -/
  stopAddr_le : s.stopAddr ≤ max s.memSize 255
  /-- `stop_reason = NONE` exactly when RUNNING (rule R19). -/
  reason_none_iff : s.stopReason = .none ↔ s.runState = .running
  /-- `stop_addr` keeps its reset value until a stop (rule R20). -/
  stopAddr_running : s.runState = .running → s.stopAddr = 0
  /-- The stop report is true. -/
  report : s.stopReportTrue

/-! ## Registers an instruction names (rule R11) -/

/-- Register `r` is one the instruction reads. -/
def readsReg (r : Fin 4) : Instr → Prop
  | .ldi _ _ => False
  | .add dst src => r.val = dst.toNat ∨ r.val = src.toNat
  | .jmp _ => False
  | .sub dst src => r.val = dst.toNat ∨ r.val = src.toNat
  | .hlt => False
  | .unrecognized _ => False

/-- Register `r` is one the instruction may write. -/
def writesReg (r : Fin 4) : Instr → Prop
  | .ldi reg _ => r.val = reg.toNat
  | .add dst _ => r.val = dst.toNat
  | .jmp _ => False
  | .sub dst _ => r.val = dst.toNat
  | .hlt => False
  | .unrecognized _ => False

/-! ## The whole cycle as rule R78 writes it -/

/-- `raise` (rule R8): end the cycle, writing the three status fields alone. -/
def State.raised (s : State) (reason : StopReason) (addr : Nat) : State :=
  { s with runState := .stopped, stopReason := reason, stopAddr := addr }

/-- The pseudocode of rule R78, line for line, apart from the decoder and the executor. -/
def State.pseudocodeCycle (s : State) : State :=
  match s.memRead s.pc with
  | none => s.raised .outOfRange s.pc
  | some op =>
    if op = 0x01#8 then
      match s.memRead (s.pc + 1) with
      | none => s.raised .outOfRange (s.pc + 1)
      | some a => match s.memRead (s.pc + 2) with
        | none => s.raised .outOfRange (s.pc + 2)
        | some b =>
          if h : a.toNat < 4 then { s with x := s.x.set a.toNat b h, pc := s.pc + 3 }
          else { s with pc := s.pc + 3 }
    else if op = 0x02#8 then
      match s.memRead (s.pc + 1) with
      | none => s.raised .outOfRange (s.pc + 1)
      | some a => match s.memRead (s.pc + 2) with
        | none => s.raised .outOfRange (s.pc + 2)
        | some b =>
          if h : a.toNat < 4 ∧ b.toNat < 4 then
            let sum := ((s.x[a.toNat]'h.1).toNat + (s.x[b.toNat]'h.2).toNat) % 256
            { s with x := s.x.set a.toNat (BitVec.ofNat 8 sum) h.1, pc := s.pc + 3 }
          else { s with pc := s.pc + 3 }
    else if op = 0x04#8 then
      match s.memRead (s.pc + 1) with
      | none => s.raised .outOfRange (s.pc + 1)
      | some a => match s.memRead (s.pc + 2) with
        | none => s.raised .outOfRange (s.pc + 2)
        | some b =>
          if h : a.toNat < 4 ∧ b.toNat < 4 then
            let difference := (((s.x[a.toNat]'h.1).toNat : Int) - (s.x[b.toNat]'h.2).toNat) % 256
            { s with x := s.x.set a.toNat (BitVec.ofInt 8 difference) h.1, pc := s.pc + 3 }
          else { s with pc := s.pc + 3 }
    else if op = 0x03#8 then
      match s.memRead (s.pc + 1) with
      | none => s.raised .outOfRange (s.pc + 1)
      | some a => { s with pc := a.toNat }
    else if op = 0xFF#8 then s.raised .halt s.pc
    else s.raised .unrecognized s.pc

end Sys2Proof.Machine
end

