-- ==== Sys2Proof/Certificates/Slice0/Obligations.lean ====
section
/-! DEFINITION. The statements for the provers, grouped as the spec's files are. Each docstring names the rules it
formalises; "the cycle" is one `step` of a RUNNING machine, "the executor" is `exec`. -/

open Sys2Proof Sys2Proof.Machine

/-! ## Reset and the image load (10_state.md, 70_reset_and_hazards.md) -/

/-- R25, R29: `Init(image)` gives memory that holds the image and then zeros, and every other field its reset value;
an image longer than memory has no result. The size constraint is rule R4's. -/
def Obligations.InitBuildsTheResetState : Prop :=
  ∀ (memSize : Nat) (image : List Byte),
    (1 ≤ memSize → image.length ≤ memSize →
      ∃ s, State.init memSize image = some s ∧ s.memSize = memSize ∧
        (∀ i, s.reg i = 0#8) ∧ s.pc = 0 ∧
        (∀ a, (h : a < image.length) → s.memRead a = some image[a]) ∧
        (∀ a, image.length ≤ a → a < memSize → s.memRead a = some 0#8) ∧
        s.runState = .running ∧ s.stopReason = .none ∧ s.stopAddr = 0) ∧
    (memSize < image.length → State.init memSize image = none)

/-- The stock machine after reset. That `State.reset` is `Init` of the empty image is the model's choice (log entry
8). -/
def Obligations.ResetIsStockMachineWithEmptyImage : Prop :=
  State.init 1024 [] = some State.reset ∧
    (∀ i, State.reset.reg i = 0#8) ∧ State.reset.pc = 0 ∧
    (∀ a, a < 1024 → State.reset.memRead a = some 0#8) ∧
    (∀ a, 1024 ≤ a → State.reset.memRead a = none) ∧
    State.reset.runState = .running ∧ State.reset.stopReason = .none ∧ State.reset.stopAddr = 0

/-- The invariant holds after reset. -/
def Obligations.ResetSatisfiesInvariant : Prop :=
  State.reset.Inv

/-- The invariant holds after `Init`, whatever the image. -/
def Obligations.InitSatisfiesInvariant : Prop :=
  ∀ (memSize : Nat) (image : List Byte) (s : State), State.init memSize image = some s → s.Inv

/-- The first cycle of a machine created with the empty image stops it with UNRECOGNIZED at 0. -/
def Obligations.EmptyImageStopsInItsFirstCycle : Prop :=
  ∀ memSize : Nat, 1 ≤ memSize →
    ∃ s, State.init memSize [] = some s ∧ s.pc = 0 ∧ (∀ i, s.reg i = 0#8) ∧
      step s = .next { s with runState := .stopped, stopReason := .unrecognized, stopAddr := 0 }

/-! ## The invariant of every step -/

/-- Every step keeps the invariant: canonical memory inside its bounds, a `pc` and a `stop_addr` that never leave
`0 .. max(MEM_SIZE, 255)`, `stop_reason` NONE exactly when RUNNING, and a stop report that says what decoding finds. -/
def Obligations.StepKeepsInvariant : Prop :=
  ∀ s t : State, s.Inv → step s = .next t → t.Inv

/-- `pc` and `stop_addr` fit `PC_BITS` bits in every state that meets the invariant. -/
def Obligations.PcAndStopAddrFitPcBits : Prop :=
  ∀ s : State, s.Inv → s.pc < 2 ^ Config.pcBits s.memSize ∧ s.stopAddr < 2 ^ Config.pcBits s.memSize

/-! ## The instructions: results, and the cycle that runs them (41_register_ops.md, 42_control.md) -/

/-- R85, LDI. The executor: the named register takes the immediate (no register where `reg` is 4 or more), every other
register keeps its value, `pc` advances by 3, nothing else changes. The cycle: it runs so from its three bytes, and
stops with OUT_OF_RANGE at `MEM_SIZE` in the last two cells. -/
def Obligations.LdiLoadsTheImmediate : Prop :=
  ∀ (s : State) (reg imm : Byte),
    (∃ t, exec (.ldi reg imm) s = .next t ∧
      (∀ i : Fin 4, t.reg i = if i.val = reg.toNat then imm else s.reg i) ∧
      t.pc = s.pc + 3 ∧ t = { s with x := t.x, pc := t.pc }) ∧
    (s.runState = .running → s.memRead s.pc = some 0x01#8 →
      (s.memRead (s.pc + 1) = some reg → s.memRead (s.pc + 2) = some imm → step s = exec (.ldi reg imm) s) ∧
      (s.pc + 1 = s.memSize ∨ s.pc + 2 = s.memSize →
        step s = .next { s with runState := .stopped, stopReason := .outOfRange, stopAddr := s.memSize }))

/-- R86, ADD. The executor: with both indices valid the destination takes the sum modulo 256 of the two old values,
every other register keeps its value, `pc` advances by 3, nothing else changes; with one invalid only `pc` changes.
The cycle: it runs so from its three bytes, and stops with OUT_OF_RANGE at `MEM_SIZE` in the last two cells. -/
def Obligations.AddSumsTheRegisters : Prop :=
  ∀ (s : State) (dst src : Byte),
    (∀ d r : Fin 4, dst.toNat = d.val → src.toNat = r.val →
      ∃ t, exec (.add dst src) s = .next t ∧
        (t.reg d).toNat = ((s.reg d).toNat + (s.reg r).toNat) % 256 ∧
        (∀ i, i ≠ d → t.reg i = s.reg i) ∧
        t.pc = s.pc + 3 ∧ t = { s with x := t.x, pc := t.pc }) ∧
    (4 ≤ dst.toNat ∨ 4 ≤ src.toNat → exec (.add dst src) s = .next { s with pc := s.pc + 3 }) ∧
    (s.runState = .running → s.memRead s.pc = some 0x02#8 →
      (s.memRead (s.pc + 1) = some dst → s.memRead (s.pc + 2) = some src → step s = exec (.add dst src) s) ∧
      (s.pc + 1 = s.memSize ∨ s.pc + 2 = s.memSize →
        step s = .next { s with runState := .stopped, stopReason := .outOfRange, stopAddr := s.memSize }))

/-- R87, SUB, in the form of ADD's statement: the destination is the minuend, and the result is the non-negative
remainder. -/
def Obligations.SubSubtractsTheSource : Prop :=
  ∀ (s : State) (dst src : Byte),
    (∀ d r : Fin 4, dst.toNat = d.val → src.toNat = r.val →
      ∃ t, exec (.sub dst src) s = .next t ∧
        ((t.reg d).toNat : Int) = (((s.reg d).toNat : Int) - (s.reg r).toNat) % 256 ∧
        (∀ i, i ≠ d → t.reg i = s.reg i) ∧
        t.pc = s.pc + 3 ∧ t = { s with x := t.x, pc := t.pc }) ∧
    (4 ≤ dst.toNat ∨ 4 ≤ src.toNat → exec (.sub dst src) s = .next { s with pc := s.pc + 3 }) ∧
    (s.runState = .running → s.memRead s.pc = some 0x04#8 →
      (s.memRead (s.pc + 1) = some dst → s.memRead (s.pc + 2) = some src → step s = exec (.sub dst src) s) ∧
      (s.pc + 1 = s.memSize ∨ s.pc + 2 = s.memSize →
        step s = .next { s with runState := .stopped, stopReason := .outOfRange, stopAddr := s.memSize }))

/-- R88: an invalid register index makes LDI, ADD and SUB change `pc` alone, and never suppresses the out-of-range
stop of an operand fetch. -/
def Obligations.InvalidIndexIsSilentNoOp : Prop :=
  (∀ (s : State) (reg imm : Byte), 4 ≤ reg.toNat → exec (.ldi reg imm) s = .next { s with pc := s.pc + 3 }) ∧
  (∀ (s : State) (dst src : Byte), 4 ≤ dst.toNat ∨ 4 ≤ src.toNat →
    exec (.add dst src) s = .next { s with pc := s.pc + 3 } ∧
    exec (.sub dst src) s = .next { s with pc := s.pc + 3 }) ∧
  (∀ (s : State) (op index : Byte), s.runState = .running → s.memRead s.pc = some op →
    op ∈ [0x01#8, 0x02#8, 0x04#8] → s.memRead (s.pc + 1) = some index → 4 ≤ index.toNat →
    s.pc + 2 = s.memSize →
    step s = .next { s with runState := .stopped, stopReason := .outOfRange, stopAddr := s.memSize })

/-- R89: ADD and SUB wrap exactly once, in either direction, and signal nothing. -/
def Obligations.ArithmeticWrapsAt256 : Prop :=
  ∀ (s : State) (dst src : Byte) (d r : Fin 4), dst.toNat = d.val → src.toNat = r.val →
    ∃ t u, exec (.add dst src) s = .next t ∧ exec (.sub dst src) s = .next u ∧
      (t.reg d).toNat =
        (if (s.reg d).toNat + (s.reg r).toNat ≤ 255 then (s.reg d).toNat + (s.reg r).toNat
         else (s.reg d).toNat + (s.reg r).toNat - 256) ∧
      (u.reg d).toNat =
        (if (s.reg r).toNat ≤ (s.reg d).toNat then (s.reg d).toNat - (s.reg r).toNat
         else (s.reg d).toNat + 256 - (s.reg r).toNat) ∧
      t = { s with x := t.x, pc := t.pc } ∧ u = { s with x := u.x, pc := u.pc }

/-- R128: with one register as source and destination ADD doubles it modulo 256 and SUB clears it. -/
def Obligations.SameRegisterTwice : Prop :=
  ∀ (s : State) (op : Byte) (d : Fin 4), op.toNat = d.val →
    ∃ t u, exec (.add op op) s = .next t ∧ exec (.sub op op) s = .next u ∧
      (t.reg d).toNat = 2 * (s.reg d).toNat % 256 ∧ u.reg d = 0#8

/-- R90, JMP. The executor: `pc` takes the operand's value and nothing else changes. The cycle: it runs so from its two
bytes, stops with OUT_OF_RANGE in the last cell, and a target that does not exist stops the next cycle, not this
one. -/
def Obligations.JmpSetsPc : Prop :=
  ∀ (s : State) (addr : Byte),
    exec (.jmp addr) s = .next { s with pc := addr.toNat } ∧
    (s.runState = .running → s.memRead s.pc = some 0x03#8 →
      (s.memRead (s.pc + 1) = some addr →
        step s = .next { s with pc := addr.toNat } ∧
        (s.memSize ≤ addr.toNat →
          step { s with pc := addr.toNat } =
            .next { s with pc := addr.toNat, runState := .stopped, stopReason := .outOfRange,
                           stopAddr := addr.toNat })) ∧
      (s.pc + 1 = s.memSize →
        step s = .next { s with runState := .stopped, stopReason := .outOfRange, stopAddr := s.memSize }))

/-- R91, R101, HLT: the executor writes the three status fields and nothing else, and the cycle runs so wherever the
byte `0xFF` stands, the last cell included. -/
def Obligations.HltStops : Prop :=
  ∀ s : State,
    exec .hlt s = .next { s with runState := .stopped, stopReason := .halt, stopAddr := s.pc } ∧
    (s.runState = .running → s.memRead s.pc = some 0xFF#8 →
      step s = .next { s with runState := .stopped, stopReason := .halt, stopAddr := s.pc })

/-- R92, R102: every byte that is none of the five opcodes stops the machine with UNRECOGNIZED, reporting `pc`, with
no other change, the last cell included. -/
def Obligations.UnrecognizedStops : Prop :=
  ∀ (s : State) (op : Byte),
    exec (.unrecognized op) s = .next { s with runState := .stopped, stopReason := .unrecognized, stopAddr := s.pc } ∧
    (op ∉ [0x01#8, 0x02#8, 0x03#8, 0x04#8, 0xFF#8] → s.runState = .running → s.memRead s.pc = some op →
      step s = .next { s with runState := .stopped, stopReason := .unrecognized, stopAddr := s.pc })

/-! ## Frames and register access (rules R11, R17, R21, R23) -/

/-- LDI, ADD and SUB leave every register but their first operand's, the status fields, `MEM_SIZE` and every byte of
memory as they were. -/
def Obligations.RegisterOperationFrame : Prop :=
  ∀ (i : Instr) (first second : Byte) (s t : State),
    (i = .ldi first second ∨ i = .add first second ∨ i = .sub first second) → exec i s = .next t →
      (∀ r : Fin 4, r.val ≠ first.toNat → t.reg r = s.reg r) ∧
      t.runState = s.runState ∧ t.stopReason = s.stopReason ∧ t.stopAddr = s.stopAddr ∧ t.memSize = s.memSize ∧
      ∀ a, t.memRead a = s.memRead a

/-- JMP, HLT and an unrecognised opcode leave every register, `MEM_SIZE` and every byte of memory as they were; JMP
leaves the status fields too, and the two stops leave `pc`. -/
def Obligations.ControlFrame : Prop :=
  ∀ (i : Instr) (addr op : Byte) (s t : State),
    (i = .jmp addr ∨ i = .hlt ∨ i = .unrecognized op) → exec i s = .next t →
      (∀ r, t.reg r = s.reg r) ∧ t.memSize = s.memSize ∧ (∀ a, t.memRead a = s.memRead a) ∧
      (i = .jmp addr → t.runState = s.runState ∧ t.stopReason = s.stopReason ∧ t.stopAddr = s.stopAddr) ∧
      (i = .hlt ∨ i = .unrecognized op → t.pc = s.pc)

/-- No instruction reads or writes a register other than those its operand bytes name: change any register it does not
read, and what it writes is the same; a register it does not write keeps its value. -/
def Obligations.OnlyNamedRegistersAreReadOrWritten : Prop :=
  ∀ (i : Instr) (s : State) (x' : Vector Byte 4), (∀ r, readsReg r i → x'[r] = s.reg r) →
    ∃ t u, exec i s = .next t ∧ exec i { s with x := x' } = .next u ∧ u = { t with x := u.x } ∧
      (∀ r, writesReg r i → t.reg r = u.reg r) ∧
      (∀ r, ¬ writesReg r i → t.reg r = s.reg r ∧ u.reg r = x'[r])

/-- R23: no instruction writes memory, none reads it as data (the executor's answer does not depend on it), and over
any number of cycles every read gives what it gave at the start. -/
def Obligations.MemoryIsConstantOverARun : Prop :=
  (∀ (i : Instr) (s : State) (m : Memory),
    ∃ t, exec i s = .next t ∧ t.mem = s.mem ∧ exec i { s with mem := m } = .next { t with mem := m }) ∧
  (∀ (n : Nat) (s t : State), runCycles n s = .next t →
    t.mem = s.mem ∧ ∀ a, t.memRead a = s.memRead a)

/-! ## Encoding (30_encoding.md) -/

/-- Decoding the encoding of a well-formed instruction gives it back, whatever bytes follow and wherever it stands. -/
def Obligations.DecodeOfEncode : Prop :=
  ∀ i : Instr, i.wf = true →
    (∀ rest : List Byte, decodeBytes (encode i ++ rest) = .instr i) ∧
    (∀ (read : Nat → Option Byte) (pc : Nat),
      (∀ k, (h : k < (encode i).length) → read (pc + k) = some (encode i)[k]) → decodeFrom read pc = .instr i)

/-- What is decoded is well formed, and the bytes it was decoded from begin with its encoding: no two encodings
overlap. -/
def Obligations.EncodeOfDecode : Prop :=
  ∀ (bytes : List Byte) (i : Instr), decodeBytes bytes = .instr i → i.wf = true ∧ encode i <+: bytes

/-- Decoding an instruction reads its own bytes and no byte after them: where they stand, what follows (a byte, or the
end of memory) does not matter. -/
def Obligations.DecodeReadsOnlyTheInstructionsBytes : Prop :=
  ∀ (read read' : Nat → Option Byte) (pc : Nat) (i : Instr), decodeFrom read pc = .instr i →
    (∀ k, k < (encode i).length → read' (pc + k) = read (pc + k)) → decodeFrom read' pc = .instr i

/-- R58: the opcode map, by exact match on all 8 bits, with each row's length. -/
def Obligations.OpcodeMap : Prop :=
  ∀ (op a b : Byte) (rest : List Byte),
    ∃ i, decodeBytes (op :: a :: b :: rest) = .instr i ∧
      i = (if op = 0x01#8 then .ldi a b else if op = 0x02#8 then .add a b else if op = 0x03#8 then .jmp a
           else if op = 0x04#8 then .sub a b else if op = 0xFF#8 then .hlt else .unrecognized op) ∧
      (encode i).length =
        (if op ∈ [0x01#8, 0x02#8, 0x04#8] then 3 else if op = 0x03#8 then 2 else 1)

/-- One word of each row, written out from the row's encoding. -/
def Obligations.SampleWordsDecode : Prop :=
  decodeTableWord 24 0b00001010_00000000_00000001 = some (.ldi 0x00#8 0x0A#8) ∧
  decodeTableWord 24 0b00000001_00000000_00000010 = some (.add 0x00#8 0x01#8) ∧
  decodeTableWord 16 0b00001000_00000011 = some (.jmp 0x08#8) ∧
  decodeTableWord 24 0b00000010_00000000_00000100 = some (.sub 0x00#8 0x02#8) ∧
  decodeTableWord 8 0b11111111 = some .hlt ∧
  decodeTableWord 8 0b00000000 = some (.unrecognized 0x00#8)

/-! ## The cycle and the run loop (40_cycle.md) -/

/-- A step of a RUNNING machine whose bytes at `pc` decode to an instruction is the executor on that instruction; the
bytes that decode to a well-formed instruction are its encoding. Nothing is added around the executor. -/
def Obligations.StepRunsTheDecodedInstruction : Prop :=
  ∀ (s : State) (i : Instr), s.runState = .running →
    (s.decoded = .instr i → step s = exec i s) ∧
    (i.wf = true → (∀ k, (h : k < (encode i).length) → s.memRead (s.pc + k) = some (encode i)[k]) →
      step s = exec i s)

/-- R78: the cycle made of the decoder and the executor is the spec's one piece of pseudocode. -/
def Obligations.CycleIsThePseudocode : Prop :=
  ∀ s : State, s.runState = .running → step s = .next s.pseudocodeCycle

/-- R14: how each decoded instruction, and an out-of-range stop, changes `pc`. -/
def Obligations.PcAfterACycle : Prop :=
  ∀ s : State, s.runState = .running →
    (∀ i, s.decoded = .instr i → ∃ t, step s = .next t ∧
      t.pc = match i with
        | .ldi _ _ => s.pc + 3
        | .add _ _ => s.pc + 3
        | .sub _ _ => s.pc + 3
        | .jmp addr => addr.toNat
        | .hlt => s.pc
        | .unrecognized _ => s.pc) ∧
    (∀ a, s.decoded = .outOfRange a → ∃ t, step s = .next t ∧ t.pc = s.pc)

/-- A jump reaches addresses up to 255 only: a RUNNING machine at 256 or above came there by falling through. -/
def Obligations.HighAddressesAreEnteredByFallingThrough : Prop :=
  ∀ s t : State, step s = .next t → t.runState = .running → 256 ≤ t.pc → t.pc = s.pc + 3

/-- A RUNNING machine always performs its next cycle: no step of it ends in a fault or a refusal. -/
def Obligations.RunningMachineAlwaysSteps : Prop :=
  ∀ s : State, s.runState = .running → ∃ t, step s = .next t

/-- A STOPPED machine has no cycle, and a run that is in it has ended there. That its step is the fault `stopped` is
the model's choice (log entry 3). -/
def Obligations.StoppedMachineHasNoCycle : Prop :=
  ∀ s : State, s.runState = .stopped →
    step s = .fault .stopped ∧ ∀ n, runCycles (n + 1) s = .fault .stopped ∧ runLoop n s = some s

/-- A run that ends does so in a STOPPED state that cycles alone led to, which more fuel does not change and which the
host then reads. -/
def Obligations.RunEndsInAFinalStoppedState : Prop :=
  ∀ (n : Nat) (s t : State), runLoop n s = some t →
    t.runState = .stopped ∧ (∃ k, k ≤ n ∧ runCycles k s = .next t) ∧
    (∀ m, n ≤ m → runLoop m s = some t) ∧
    t.observe = some { x := t.x, pc := t.pc, stopReason := t.stopReason, stopAddr := t.stopAddr, mem := s.mem }

/-- A jump to its own address never leaves RUNNING: no fuel ends the run. -/
def Obligations.JumpToItselfNeverEnds : Prop :=
  ∀ (s : State) (addr : Byte), s.runState = .running → s.memRead s.pc = some 0x03#8 →
    s.memRead (s.pc + 1) = some addr → addr.toNat = s.pc →
    ∀ n, runLoop n s = none ∧ runCycles n s = .next s

/-- A RUNNING machine that comes back to a `pc` it has been at never stops. -/
def Obligations.RevisitedPcNeverEnds : Prop :=
  ∀ (n : Nat) (s t : State), 1 ≤ n → runCycles n s = .next t → t.runState = .running → t.pc = s.pc →
    ∀ k, runLoop k s = none

/-- A run that stops performs at most `max(MEM_SIZE, 255) + 1` cycles, the stopping cycle included. -/
def Obligations.StoppingRunIsBounded : Prop :=
  ∀ (n : Nat) (s t : State), s.Inv → runLoop n s = some t → runLoop (max s.memSize 255 + 1) s = some t

/-- The sequence of `pc` values of a run, and whether and how it stops, do not depend on register values. -/
def Obligations.RegistersDoNotSteerControl : Prop :=
  ∀ (n : Nat) (s : State) (x' : Vector Byte 4),
    match runCycles n s, runCycles n { s with x := x' } with
    | .next t, .next u => u = { t with x := u.x }
    | .fault _, .fault _ => True
    | _, _ => False

/-! ## The stops (60_exceptions.md) -/

/-- R100: the codes of the three stops, and that a cycle stops the machine in exactly these ways, with these
reports. -/
def Obligations.OnlyThreeConditionsStop : Prop :=
  (StopReason.halt.code = 1#2 ∧ StopReason.unrecognized.code = 2#2 ∧ StopReason.outOfRange.code = 3#2) ∧
  ∀ s t : State, s.runState = .running → step s = .next t →
    (t.runState = .stopped ↔
      ((s.memRead s.pc = some 0xFF#8 ∧ t.stopReason = .halt ∧ t.stopAddr = s.pc) ∨
       ((∃ op, s.memRead s.pc = some op ∧ op ∉ [0x01#8, 0x02#8, 0x03#8, 0x04#8, 0xFF#8]) ∧
         t.stopReason = .unrecognized ∧ t.stopAddr = s.pc) ∨
       (s.memSize ≤ s.pc ∧ t.stopReason = .outOfRange ∧ t.stopAddr = s.pc) ∨
       ((∃ op, s.memRead s.pc = some op ∧ op ∈ [0x01#8, 0x02#8, 0x04#8]) ∧ s.memSize ≤ s.pc + 2 ∧
         t.stopReason = .outOfRange ∧ t.stopAddr = s.memSize) ∨
       (s.memRead s.pc = some 0x03#8 ∧ s.memSize ≤ s.pc + 1 ∧
         t.stopReason = .outOfRange ∧ t.stopAddr = s.memSize)))

/-- R103: every case of the out-of-range stop, and the cases beside it where the machine does something else; every
stop among them writes the three status fields and nothing else. -/
def Obligations.OutOfRangeCases : Prop :=
  ∀ s : State, s.runState = .running →
    (s.memSize ≤ s.pc →
      step s = .next { s with runState := .stopped, stopReason := .outOfRange, stopAddr := s.pc }) ∧
    (s.pc + 1 = s.memSize → ∀ op, s.memRead s.pc = some op →
      step s = .next
        (if op ∈ [0x01#8, 0x02#8, 0x03#8, 0x04#8] then
          { s with runState := .stopped, stopReason := .outOfRange, stopAddr := s.memSize }
        else if op = 0xFF#8 then { s with runState := .stopped, stopReason := .halt, stopAddr := s.pc }
        else { s with runState := .stopped, stopReason := .unrecognized, stopAddr := s.pc })) ∧
    (s.pc + 2 = s.memSize → ∀ op, s.memRead s.pc = some op →
      (op ∈ [0x01#8, 0x02#8, 0x04#8] →
        step s = .next { s with runState := .stopped, stopReason := .outOfRange, stopAddr := s.memSize }) ∧
      (op = 0x03#8 → ∃ addr, s.memRead (s.pc + 1) = some addr ∧ step s = .next { s with pc := addr.toNat })) ∧
    (s.pc + 3 ≤ s.memSize →
      ∃ t, step s = .next t ∧ (t.runState = .stopped →
        (t.stopReason = .halt ∨ t.stopReason = .unrecognized) ∧
        t = { s with runState := .stopped, stopReason := t.stopReason, stopAddr := t.stopAddr }))

/-- R106: the order of a cycle's checks; the first that fires ends it, and execution, which comes last, stops
nothing. -/
def Obligations.ChecksAreMadeInOrder : Prop :=
  ∀ s : State, s.runState = .running →
    (s.memSize ≤ s.pc →
      step s = .next { s with runState := .stopped, stopReason := .outOfRange, stopAddr := s.pc }) ∧
    ∀ op, s.memRead s.pc = some op →
      (op = 0xFF#8 → step s = .next { s with runState := .stopped, stopReason := .halt, stopAddr := s.pc }) ∧
      (op ∉ [0x01#8, 0x02#8, 0x03#8, 0x04#8, 0xFF#8] →
        step s = .next { s with runState := .stopped, stopReason := .unrecognized, stopAddr := s.pc }) ∧
      (op ∈ [0x01#8, 0x02#8, 0x03#8, 0x04#8] → s.memSize ≤ s.pc + 1 →
        step s = .next { s with runState := .stopped, stopReason := .outOfRange, stopAddr := s.pc + 1 }) ∧
      (op ∈ [0x01#8, 0x02#8, 0x04#8] → s.pc + 1 < s.memSize → s.memSize ≤ s.pc + 2 →
        step s = .next { s with runState := .stopped, stopReason := .outOfRange, stopAddr := s.pc + 2 }) ∧
      (op ∈ [0x01#8, 0x02#8, 0x04#8] → s.pc + 2 < s.memSize → ∃ t, step s = .next t ∧ t.runState = .running) ∧
      (op = 0x03#8 → s.pc + 1 < s.memSize → ∃ t, step s = .next t ∧ t.runState = .running)

/-- R108: a stop is precise: it writes the three status fields and nothing else. -/
def Obligations.StopsArePrecise : Prop :=
  ∀ s t : State, s.runState = .running → step s = .next t → t.runState = .stopped →
    t = { s with runState := .stopped, stopReason := t.stopReason, stopAddr := t.stopAddr }

/-- A run ended normally exactly when the byte at its final `pc` is HLT's, and any other end is one of the two error
stops. -/
def Obligations.CompletedExactlyAtAHaltByte : Prop :=
  ∀ (n : Nat) (s t : State), s.Inv → runLoop n s = some t →
    (t.completed = true ↔ s.memRead t.pc = some 0xFF#8) ∧ (t.completed = false ↔ t.faulted = true)

/-- A three-byte instruction in the last three cells completes and leaves `pc = MEM_SIZE`, and the next cycle stops
there; a zero cell stops the machine at its own address. Neither wraps to 0. -/
def Obligations.RunningOffTheEnd : Prop :=
  ∀ (s : State) (op : Byte), s.runState = .running → s.memRead s.pc = some op →
    (op ∈ [0x01#8, 0x02#8, 0x04#8] → s.pc + 3 = s.memSize →
      ∃ t, step s = .next t ∧ t.runState = .running ∧ t.pc = s.memSize ∧
        step t = .next { t with runState := .stopped, stopReason := .outOfRange, stopAddr := s.memSize }) ∧
    (op = 0x00#8 →
      step s = .next { s with runState := .stopped, stopReason := .unrecognized, stopAddr := s.pc })
end

