-- ==== Sys2Proof/Laws/Decode.lean ====
section
/-! SUPPORT. What the decoder can answer, said once: which bytes each opcode tag stands for, the decoder's answer from
the bytes it reads, and that it depends on those bytes alone. -/

namespace Sys2Proof

/-- The opcode tag decides the opcode byte, but for the default tag (rule R58). -/
theorem classify_cases (op : Byte) :
    (op = 0x01#8 ∧ classify op = .ldi) ∨ (op = 0x02#8 ∧ classify op = .add) ∨
    (op = 0x03#8 ∧ classify op = .jmp) ∨ (op = 0x04#8 ∧ classify op = .sub) ∨
    (op = 0xFF#8 ∧ classify op = .hlt) ∨ (op ∉ Instr.knownOpcodes ∧ classify op = .unrecognized) := by
  revert op
  decide

/-- A byte that is no known opcode falls to the default tag (rule R59). -/
theorem classify_of_not_known {op : Byte} (h : op ∉ Instr.knownOpcodes) : classify op = .unrecognized := by
  revert op
  decide

/-- The default row's instruction is well formed exactly when its byte is no known opcode. -/
theorem wf_unrecognized {op : Byte} : (Instr.unrecognized op).wf = true ↔ op ∉ Instr.knownOpcodes := by
  simp [Instr.wf]

section
variable {read : Nat → Option Byte} {pc : Nat} {op a b : Byte}

theorem fetchByte_some {k : Byte → Decoded} (h : read pc = some a) : fetchByte read pc k = k a := by
  simp [fetchByte, h]

theorem fetchByte_none {k : Byte → Decoded} (h : read pc = none) : fetchByte read pc k = .outOfRange pc := by
  simp [fetchByte, h]

/-- The opcode fetch out of range (rule R72). -/
theorem decodeFrom_none (h : read pc = none) : decodeFrom read pc = .outOfRange pc :=
  fetchByte_none h

/-- A three-byte instruction's first operand out of range (rule R74). -/
theorem decodeFrom_firstOperand_none (h0 : read pc = some op) (hlen : (classify op).length ≠ 1)
    (h1 : read (pc + 1) = none) : decodeFrom read pc = .outOfRange (pc + 1) := by
  simp only [decodeFrom, fetchByte_some h0]
  split <;> simp_all [Opcode.length, fetchByte]

/-- A three-byte instruction's second operand out of range (rule R74). -/
theorem decodeFrom_secondOperand_none (h0 : read pc = some op) (hlen : (classify op).length = 3)
    (h1 : read (pc + 1) = some a) (h2 : read (pc + 2) = none) : decodeFrom read pc = .outOfRange (pc + 2) := by
  simp only [decodeFrom, fetchByte_some h0]
  split <;> simp_all [Opcode.length, fetchByte]

/-- LDI decodes from its three bytes (rule R74). -/
theorem decodeFrom_ldi (h0 : read pc = some 0x01#8) (h1 : read (pc + 1) = some a) (h2 : read (pc + 2) = some b) :
    decodeFrom read pc = .instr (.ldi a b) := by
  simp [decodeFrom, fetchByte, h0, h1, h2, classify]

/-- ADD decodes from its three bytes (rule R74). -/
theorem decodeFrom_add (h0 : read pc = some 0x02#8) (h1 : read (pc + 1) = some a) (h2 : read (pc + 2) = some b) :
    decodeFrom read pc = .instr (.add a b) := by
  simp [decodeFrom, fetchByte, h0, h1, h2, classify]

/-- JMP decodes from its two bytes (rule R75). -/
theorem decodeFrom_jmp (h0 : read pc = some 0x03#8) (h1 : read (pc + 1) = some a) :
    decodeFrom read pc = .instr (.jmp a) := by
  simp [decodeFrom, fetchByte, h0, h1, classify]

/-- SUB decodes from its three bytes (rule R74). -/
theorem decodeFrom_sub (h0 : read pc = some 0x04#8) (h1 : read (pc + 1) = some a) (h2 : read (pc + 2) = some b) :
    decodeFrom read pc = .instr (.sub a b) := by
  simp [decodeFrom, fetchByte, h0, h1, h2, classify]

/-- HLT decodes from its one byte (rule R73). -/
theorem decodeFrom_hlt (h0 : read pc = some 0xFF#8) : decodeFrom read pc = .instr .hlt := by
  simp [decodeFrom, fetchByte, h0, classify]

/-- Any other byte decodes to the default row's instruction (rules R59, R73). -/
theorem decodeFrom_unrecognized (h0 : read pc = some op) (hop : op ∉ Instr.knownOpcodes) :
    decodeFrom read pc = .instr (.unrecognized op) := by
  simp [decodeFrom, fetchByte, h0, classify_of_not_known hop]

/-- Inversion: which bytes stood where an instruction was decoded. -/
theorem decodeFrom_eq_instr {i : Instr} (h : decodeFrom read pc = .instr i) :
    (∃ a b, i = .ldi a b ∧ read pc = some 0x01#8 ∧ read (pc + 1) = some a ∧ read (pc + 2) = some b) ∨
    (∃ a b, i = .add a b ∧ read pc = some 0x02#8 ∧ read (pc + 1) = some a ∧ read (pc + 2) = some b) ∨
    (∃ a, i = .jmp a ∧ read pc = some 0x03#8 ∧ read (pc + 1) = some a) ∨
    (∃ a b, i = .sub a b ∧ read pc = some 0x04#8 ∧ read (pc + 1) = some a ∧ read (pc + 2) = some b) ∨
    (i = .hlt ∧ read pc = some 0xFF#8) ∨
    (∃ op, i = .unrecognized op ∧ read pc = some op ∧ op ∉ Instr.knownOpcodes) := by
  cases h0 : read pc with
  | none => simp [decodeFrom_none h0] at h
  | some op =>
    simp only [decodeFrom, fetchByte_some h0] at h
    rcases classify_cases op with ⟨rfl, hc⟩ | ⟨rfl, hc⟩ | ⟨rfl, hc⟩ | ⟨rfl, hc⟩ | ⟨rfl, hc⟩ | ⟨hop, hc⟩ <;>
      rw [hc] at h <;> cases h1 : read (pc + 1) <;> cases h2 : read (pc + 2) <;> simp_all [fetchByte]

/-- Inversion of the decoder's rejection: which read was out of range, every one before it having succeeded. -/
theorem decodeFrom_eq_outOfRange {addr : Nat} (h : decodeFrom read pc = .outOfRange addr) :
    (addr = pc ∧ read pc = none) ∨
    (∃ op, read pc = some op ∧ (classify op).length ≠ 1 ∧ addr = pc + 1 ∧ read (pc + 1) = none) ∨
    (∃ op a, read pc = some op ∧ (classify op).length = 3 ∧ read (pc + 1) = some a ∧ addr = pc + 2 ∧
      read (pc + 2) = none) := by
  cases h0 : read pc with
  | none => exact .inl ⟨by simpa [decodeFrom_none h0] using h.symm, rfl⟩
  | some op =>
    simp only [decodeFrom, fetchByte_some h0] at h
    cases h1 : read (pc + 1) <;> cases h2 : read (pc + 2) <;> cases hc : classify op <;>
      simp_all [fetchByte, Opcode.length]

end

/-- The decoder's instruction depends on the three bytes from `pc` on alone, wherever they are read from. -/
theorem decodeFrom_instr_of_reads {read read' : Nat → Option Byte} {pc pc' : Nat} {i : Instr}
    (h0 : read pc = read' pc') (h1 : read (pc + 1) = read' (pc' + 1)) (h2 : read (pc + 2) = read' (pc' + 2))
    (h : decodeFrom read pc = .instr i) : decodeFrom read' pc' = .instr i := by
  rcases decodeFrom_eq_instr h with ⟨a, b, rfl, r0, r1, r2⟩ | ⟨a, b, rfl, r0, r1, r2⟩ | ⟨a, rfl, r0, r1⟩ |
    ⟨a, b, rfl, r0, r1, r2⟩ | ⟨rfl, r0⟩ | ⟨op, rfl, r0, hop⟩
  · exact decodeFrom_ldi (h0 ▸ r0) (h1 ▸ r1) (h2 ▸ r2)
  · exact decodeFrom_add (h0 ▸ r0) (h1 ▸ r1) (h2 ▸ r2)
  · exact decodeFrom_jmp (h0 ▸ r0) (h1 ▸ r1)
  · exact decodeFrom_sub (h0 ▸ r0) (h1 ▸ r1) (h2 ▸ r2)
  · exact decodeFrom_hlt (h0 ▸ r0)
  · exact decodeFrom_unrecognized (h0 ▸ r0) hop

end Sys2Proof
end

