-- ==== Sys2Proof/Laws/Memory.lean ====
section
/-! SUPPORT. The laws of memory: read after write, and the canonical form, which every operation keeps and which makes
equal memories equal data. -/

namespace Sys2Proof.Machine

theorem Memory.wf_nil : Memory.wf [] := by simp [Memory.wf]

theorem Memory.wf_cons {k : Nat} {v : Byte} {m : Memory} :
    Memory.wf ((k, v) :: m) ↔ (∀ c ∈ m, k < c.1) ∧ v ≠ Memory.unlisted ∧ Memory.wf m := by
  simp only [Memory.wf, List.pairwise_cons, List.mem_cons, forall_eq_or_imp]
  tauto

/-- An address below every listed one reads as unlisted. -/
theorem Memory.read_of_forall_lt {m : Memory} {a : Nat} (h : ∀ c ∈ m, a < c.1) :
    Memory.read m a = Memory.unlisted := by
  induction m with
  | nil => rfl
  | cons c m ih =>
    obtain ⟨k, v⟩ := c
    have hk : k ≠ a := (h (k, v) (by simp)).ne'
    simp [Memory.read, hk, ih fun c hc => h c (by simp [hc])]

theorem Memory.read_consCell_same {m : Memory} {a : Nat} {v : Byte} (h : ∀ c ∈ m, a < c.1) :
    Memory.read (Memory.consCell a v m) a = v := by
  by_cases hv : v = Memory.unlisted
  · simp [Memory.consCell, hv, Memory.read_of_forall_lt h]
  · simp [Memory.consCell, hv, Memory.read]

theorem Memory.read_consCell_ne {m : Memory} {a b : Nat} {v : Byte} (h : b ≠ a) :
    Memory.read (Memory.consCell a v m) b = Memory.read m b := by
  by_cases hv : v = Memory.unlisted
  · simp [Memory.consCell, hv]
  · simp [Memory.consCell, hv, Memory.read, h.symm]

theorem Memory.wf_consCell {m : Memory} {a : Nat} {v : Byte} (h : ∀ c ∈ m, a < c.1) (hm : Memory.wf m) :
    Memory.wf (Memory.consCell a v m) := by
  by_cases hv : v = Memory.unlisted
  · simpa only [Memory.consCell, hv, if_true] using hm
  · simpa only [Memory.consCell, hv, if_false] using Memory.wf_cons.2 ⟨h, hv, hm⟩

/-- Reading the byte just written. -/
theorem Memory.read_write_same {m : Memory} (a : Nat) (v : Byte) (hm : Memory.wf m) :
    Memory.read (Memory.write m a v) a = v := by
  induction m with
  | nil => exact Memory.read_consCell_same (by simp)
  | cons c m ih =>
    obtain ⟨k, w⟩ := c
    obtain ⟨hk, -, hm⟩ := Memory.wf_cons.1 hm
    unfold Memory.write
    split_ifs with h1 h2
    · refine Memory.read_consCell_same fun c hc => ?_
      rcases List.mem_cons.1 hc with rfl | hc
      · exact h1
      · exact h1.trans (hk c hc)
    · subst h2
      exact Memory.read_consCell_same hk
    · simp [Memory.read, Ne.symm h2, ih hm]

/-- A write leaves every other address alone. -/
theorem Memory.read_write_ne {m : Memory} {a b : Nat} (v : Byte) (h : b ≠ a) :
    Memory.read (Memory.write m a v) b = Memory.read m b := by
  induction m with
  | nil => exact Memory.read_consCell_ne h
  | cons c m ih =>
    obtain ⟨k, w⟩ := c
    unfold Memory.write
    split_ifs with h1 h2
    · exact Memory.read_consCell_ne h
    · subst h2
      rw [Memory.read_consCell_ne h]
      simp [Memory.read, h.symm]
    · simp [Memory.read, ih]

/-- The addresses listed after a write: those listed before, and the one written. -/
theorem Memory.mem_write {m : Memory} {a : Nat} {v : Byte} {c : Host.Cell} (hc : c ∈ Memory.write m a v) :
    c.1 = a ∨ c ∈ m := by
  have cons : ∀ {l : Memory}, c ∈ Memory.consCell a v l → c.1 = a ∨ c ∈ l := by
    intro l hl
    unfold Memory.consCell at hl
    split_ifs at hl
    · exact .inr hl
    · rcases List.mem_cons.1 hl with rfl | hl
      · exact .inl rfl
      · exact .inr hl
  induction m with
  | nil => exact cons hc
  | cons d m ih =>
    obtain ⟨k, w⟩ := d
    unfold Memory.write at hc
    split_ifs at hc with h1 h2
    · exact cons hc
    · exact (cons hc).imp_right (List.mem_cons_of_mem _)
    · rcases List.mem_cons.1 hc with rfl | hc
      · exact .inr (by simp)
      · exact (ih hc).imp_right (List.mem_cons_of_mem _)

/-- A write keeps the canonical form. -/
theorem Memory.wf_write {m : Memory} (a : Nat) (v : Byte) (hm : Memory.wf m) : Memory.wf (Memory.write m a v) := by
  induction m with
  | nil => exact Memory.wf_consCell (by simp) Memory.wf_nil
  | cons c m ih =>
    obtain ⟨k, w⟩ := c
    obtain ⟨hk, hw, hm'⟩ := Memory.wf_cons.1 hm
    unfold Memory.write
    split_ifs with h1 h2
    · refine Memory.wf_consCell (fun c hc => ?_) hm
      rcases List.mem_cons.1 hc with rfl | hc
      · exact h1
      · exact h1.trans (hk c hc)
    · subst h2
      exact Memory.wf_consCell hk hm'
    · refine Memory.wf_cons.2 ⟨fun c hc => ?_, hw, ih hm'⟩
      rcases Memory.mem_write hc with rfl | hc
      · omega
      · exact hk c hc

/-- Canonical memories that read alike are the same data. -/
theorem Memory.eq_of_read_eq {m l : Memory} (hm : Memory.wf m) (hl : Memory.wf l)
    (h : ∀ a, Memory.read m a = Memory.read l a) : m = l := by
  induction m generalizing l with
  | nil =>
    cases l with
    | nil => rfl
    | cons d l =>
      obtain ⟨-, hv, -⟩ := Memory.wf_cons.1 hl
      exact absurd (by simpa [Memory.read] using (h d.1).symm) hv
  | cons c m ih =>
    obtain ⟨k, v⟩ := c
    obtain ⟨hk, hv, hm⟩ := Memory.wf_cons.1 hm
    cases l with
    | nil => exact absurd (by simpa [Memory.read] using h k) hv
    | cons d l =>
      obtain ⟨j, w⟩ := d
      obtain ⟨hj, hw, hl'⟩ := Memory.wf_cons.1 hl
      have hkj : k = j := by
        rcases Nat.lt_trichotomy k j with hlt | heq | hgt
        · refine absurd ?_ hv
          have := h k
          rw [Memory.read_of_forall_lt (m := (j, w) :: l)] at this
          · simpa [Memory.read] using this
          · intro c hc
            rcases List.mem_cons.1 hc with rfl | hc
            · exact hlt
            · exact hlt.trans (hj c hc)
        · exact heq
        · refine absurd ?_ hw
          have := h j
          rw [Memory.read_of_forall_lt (m := (k, v) :: m)] at this
          · simpa [Memory.read] using this.symm
          · intro c hc
            rcases List.mem_cons.1 hc with rfl | hc
            · exact hgt
            · exact hgt.trans (hk c hc)
      subst hkj
      have hvw : v = w := by simpa [Memory.read] using h k
      subst hvw
      refine congrArg _ (ih hm hl' fun a => ?_)
      by_cases ha : k = a
      · subst ha
        rw [Memory.read_of_forall_lt hk, Memory.read_of_forall_lt hj]
      · simpa [Memory.read, ha] using h a

end Sys2Proof.Machine
end

