-- ==== Sys2Proof/Laws/State.lean ====
section
/-! SUPPORT. What each state update does to each field, and to what is read through the accessors. -/

namespace Sys2Proof.Machine

/-! ## Fields -/

section
variable (s : State) (i j : Fin 4) (v : Byte) (n t : Nat) (r : StopReason)

@[simp] theorem setReg_memSize : (s.setReg i v).memSize = s.memSize := rfl
@[simp] theorem setReg_pc : (s.setReg i v).pc = s.pc := rfl
@[simp] theorem setReg_mem : (s.setReg i v).mem = s.mem := rfl
@[simp] theorem setReg_runState : (s.setReg i v).runState = s.runState := rfl
@[simp] theorem setReg_stopReason : (s.setReg i v).stopReason = s.stopReason := rfl
@[simp] theorem setReg_stopAddr : (s.setReg i v).stopAddr = s.stopAddr := rfl

@[simp] theorem advance_memSize : (s.advance n).memSize = s.memSize := rfl
@[simp] theorem advance_x : (s.advance n).x = s.x := rfl
@[simp] theorem advance_pc : (s.advance n).pc = s.pc + n := rfl
@[simp] theorem advance_mem : (s.advance n).mem = s.mem := rfl
@[simp] theorem advance_runState : (s.advance n).runState = s.runState := rfl
@[simp] theorem advance_stopReason : (s.advance n).stopReason = s.stopReason := rfl
@[simp] theorem advance_stopAddr : (s.advance n).stopAddr = s.stopAddr := rfl

@[simp] theorem jumpTo_memSize : (s.jumpTo t).memSize = s.memSize := rfl
@[simp] theorem jumpTo_x : (s.jumpTo t).x = s.x := rfl
@[simp] theorem jumpTo_pc : (s.jumpTo t).pc = t := rfl
@[simp] theorem jumpTo_mem : (s.jumpTo t).mem = s.mem := rfl
@[simp] theorem jumpTo_runState : (s.jumpTo t).runState = s.runState := rfl
@[simp] theorem jumpTo_stopReason : (s.jumpTo t).stopReason = s.stopReason := rfl
@[simp] theorem jumpTo_stopAddr : (s.jumpTo t).stopAddr = s.stopAddr := rfl

@[simp] theorem stop_memSize : (s.stop r t).memSize = s.memSize := rfl
@[simp] theorem stop_x : (s.stop r t).x = s.x := rfl
@[simp] theorem stop_pc : (s.stop r t).pc = s.pc := rfl
@[simp] theorem stop_mem : (s.stop r t).mem = s.mem := rfl
@[simp] theorem stop_runState : (s.stop r t).runState = .stopped := rfl
@[simp] theorem stop_stopReason : (s.stop r t).stopReason = r := rfl
@[simp] theorem stop_stopAddr : (s.stop r t).stopAddr = t := rfl

@[simp] theorem created_memSize : (State.created n).memSize = n := rfl
@[simp] theorem created_pc : (State.created n).pc = 0 := rfl
@[simp] theorem created_mem : (State.created n).mem = [] := rfl
@[simp] theorem created_runState : (State.created n).runState = .running := rfl
@[simp] theorem created_stopReason : (State.created n).stopReason = .none := rfl
@[simp] theorem created_stopAddr : (State.created n).stopAddr = 0 := rfl

/-! ## Registers through `State.reg` -/

@[simp] theorem reg_setReg : (s.setReg i v).reg j = if i = j then v else s.reg j := by
  simp [State.reg, State.setReg, Vector.getElem_set, Fin.ext_iff]

@[simp] theorem reg_advance : (s.advance n).reg i = s.reg i := rfl
@[simp] theorem reg_jumpTo : (s.jumpTo t).reg i = s.reg i := rfl
@[simp] theorem reg_stop : (s.stop r t).reg i = s.reg i := rfl
@[simp] theorem reg_created : (State.created n).reg i = 0#8 := by
  simp [State.reg, State.created]

/-! ## Memory through `State.memRead` -/

@[simp] theorem memRead_setReg (a : Nat) : (s.setReg i v).memRead a = s.memRead a := rfl
@[simp] theorem memRead_advance (a : Nat) : (s.advance n).memRead a = s.memRead a := rfl
@[simp] theorem memRead_jumpTo (a : Nat) : (s.jumpTo t).memRead a = s.memRead a := rfl
@[simp] theorem memRead_stop (a : Nat) : (s.stop r t).memRead a = s.memRead a := rfl

/-- A stop leaves what is decoded at `pc` as it was. -/
@[simp] theorem decoded_stop : (s.stop r t).decoded = s.decoded := rfl

end

/-- States that agree on what is read through the accessors are equal. -/
theorem State.ext_of_reads {s t : State} (hsize : s.memSize = t.memSize) (hreg : ∀ i, s.reg i = t.reg i)
    (hpc : s.pc = t.pc) (hmem : s.mem = t.mem) (hrun : s.runState = t.runState)
    (hreason : s.stopReason = t.stopReason) (haddr : s.stopAddr = t.stopAddr) : s = t := by
  cases s
  cases t
  simp only at hsize hpc hmem hrun hreason haddr
  subst hsize hpc hmem hrun hreason haddr
  congr 1
  exact Vector.ext fun k hk => hreg ⟨k, hk⟩

end Sys2Proof.Machine
end

