-- ==== Sys2Proof/Laws/Ops.lean ====
section
/-! SUPPORT. What each shared operation can do, said once. -/

namespace Sys2Proof.Machine

/-! ## Operands -/

theorem regIndex_of_lt {i : Byte} (h : i.toNat < 4) : regIndex i = some ⟨i.toNat, h⟩ := by
  simp [regIndex, h]

theorem regIndex_of_ge {i : Byte} (h : 4 ≤ i.toNat) : regIndex i = none := by
  simp [regIndex, Nat.not_lt.2 h]

theorem regIndex_eq_some {i : Byte} {r : Fin 4} : regIndex i = some r ↔ i.toNat = r.val := by
  unfold regIndex
  split_ifs with h
  · simp [Fin.ext_iff]
  · simp only [false_iff]
    omega

/-! ## Arithmetic (rule R89) -/

theorem sumMod256_toNat (a b : Byte) : (sumMod256 a b).toNat = (a.toNat + b.toNat) % 256 := by
  simp [sumMod256, BitVec.toNat_add]

theorem differenceMod256_toNat (a b : Byte) :
    ((differenceMod256 a b).toNat : Int) = ((a.toNat : Int) - b.toNat) % 256 := by
  simp only [differenceMod256, BitVec.toNat_sub]
  omega

/-! ## Writing through operand bytes -/

/-- `writeOperand` writes the named register, or nothing (rules R85, R88). -/
theorem reg_writeOperand (s : State) (i v : Byte) (r : Fin 4) :
    (s.writeOperand i v).reg r = if r.val = i.toNat then v else s.reg r := by
  unfold State.writeOperand
  cases h : regIndex i with
  | none =>
    have : ¬ i.toNat < 4 := fun hlt => by simp [regIndex_of_lt hlt] at h
    have : r.val ≠ i.toNat := by omega
    simp [this]
  | some k =>
    rw [regIndex_eq_some] at h
    simp [h, Fin.ext_iff, eq_comm]

theorem writeOperand_of_ge {s : State} {i v : Byte} (h : 4 ≤ i.toNat) : s.writeOperand i v = s := by
  simp [State.writeOperand, regIndex_of_ge h]

/-- `writeOperand` changes registers only. -/
theorem writeOperand_eq (s : State) (i v : Byte) :
    s.writeOperand i v = { s with x := (s.writeOperand i v).x } := by
  unfold State.writeOperand
  split <;> rfl

/-- `combine` on two valid operand bytes (rules R86, R87): both registers read before the write. -/
theorem combine_of_valid {s : State} {f : Byte → Byte → Byte} {dst src : Byte} {d r : Fin 4}
    (hd : dst.toNat = d.val) (hr : src.toNat = r.val) :
    s.combine f dst src = s.setReg d (f (s.reg d) (s.reg r)) := by
  simp [State.combine, regIndex_eq_some.2 hd, regIndex_eq_some.2 hr]

/-- `combine` with an invalid operand byte changes nothing (rule R88). -/
theorem combine_of_invalid {s : State} {f : Byte → Byte → Byte} {dst src : Byte}
    (h : 4 ≤ dst.toNat ∨ 4 ≤ src.toNat) : s.combine f dst src = s := by
  unfold State.combine
  rcases h with h | h
  · simp [regIndex_of_ge h]
  · cases regIndex dst <;> simp [regIndex_of_ge h]

/-- `combine` changes registers only. -/
theorem combine_eq (s : State) (f : Byte → Byte → Byte) (dst src : Byte) :
    s.combine f dst src = { s with x := (s.combine f dst src).x } := by
  unfold State.combine
  split <;> rfl

/-- `combine` leaves every register but the destination alone. -/
theorem reg_combine_of_ne (s : State) (f : Byte → Byte → Byte) {dst src : Byte} {r : Fin 4} (h : r.val ≠ dst.toNat) :
    (s.combine f dst src).reg r = s.reg r := by
  unfold State.combine
  split
  · next d _ hd _ =>
    rw [regIndex_eq_some] at hd
    have : d ≠ r := fun e => h (by rw [hd, e])
    simp [this]
  · rfl

/-! ## Memory -/

theorem memRead_of_lt {s : State} {a : Nat} (h : a < s.memSize) : s.memRead a = some (Memory.read s.mem a) := by
  simp [State.memRead, h]

/-- A read fails exactly outside memory (rule R33). -/
theorem memRead_eq_none {s : State} {a : Nat} : s.memRead a = none ↔ s.memSize ≤ a := by
  simp [State.memRead]

theorem lt_of_memRead {s : State} {a : Nat} {b : Byte} (h : s.memRead a = some b) : a < s.memSize := by
  by_contra hn
  simp [State.memRead, hn] at h

/-- `memWrite` changes memory only. -/
theorem memWrite_eq (s : State) (a : Nat) (v : Byte) : s.memWrite a v = { s with mem := (s.memWrite a v).mem } := by
  unfold State.memWrite
  split <;> rfl

@[simp] theorem memWrite_memSize (s : State) (a : Nat) (v : Byte) : (s.memWrite a v).memSize = s.memSize := by
  rw [memWrite_eq]

theorem memRead_memWrite_same {s : State} {a : Nat} {v : Byte} (hm : Memory.wf s.mem) (ha : a < s.memSize) :
    (s.memWrite a v).memRead a = some v := by
  simp [State.memWrite, State.memRead, ha, Memory.read_write_same a v hm]

theorem memRead_memWrite_ne {s : State} {a b : Nat} {v : Byte} (h : b ≠ a) :
    (s.memWrite a v).memRead b = s.memRead b := by
  unfold State.memWrite
  split
  · simp [State.memRead, Memory.read_write_ne v h]
  · rfl

/-- A write keeps memory canonical and its listed cells in range. -/
theorem memWrite_keeps {s : State} (a : Nat) (v : Byte) (hm : Memory.wf s.mem)
    (hr : ∀ c ∈ s.mem, c.1 < s.memSize) :
    Memory.wf (s.memWrite a v).mem ∧ ∀ c ∈ (s.memWrite a v).mem, c.1 < s.memSize := by
  unfold State.memWrite
  split
  · next ha =>
    refine ⟨Memory.wf_write a v hm, fun c hc => ?_⟩
    rcases Memory.mem_write hc with rfl | hc
    · exact ha
    · exact hr c hc
  · exact ⟨hm, hr⟩

/-- `placeBytes` changes memory only. -/
theorem placeBytes_eq (s : State) (a : Nat) (bs : List Byte) :
    s.placeBytes a bs = { s with mem := (s.placeBytes a bs).mem } := by
  induction bs generalizing s a with
  | nil => rfl
  | cons b bs ih =>
    have h := ih (s.memWrite a b) (a + 1)
    rw [memWrite_eq s a b] at h
    rw [State.placeBytes, memWrite_eq s a b]
    exact h

@[simp] theorem placeBytes_memSize (s : State) (a : Nat) (bs : List Byte) :
    (s.placeBytes a bs).memSize = s.memSize := by
  rw [placeBytes_eq]

theorem placeBytes_keeps {s : State} (a : Nat) (bs : List Byte) (hm : Memory.wf s.mem)
    (hr : ∀ c ∈ s.mem, c.1 < s.memSize) :
    Memory.wf (s.placeBytes a bs).mem ∧ ∀ c ∈ (s.placeBytes a bs).mem, c.1 < s.memSize := by
  induction bs generalizing s a with
  | nil => exact ⟨hm, hr⟩
  | cons b bs ih =>
    obtain ⟨hm', hr'⟩ := memWrite_keeps a b hm hr
    simpa [State.placeBytes] using ih (a + 1) hm' (by simpa using hr')

/-- Bytes placed from `a` on leave everything below `a` and from `a + length` on as it was. -/
theorem memRead_placeBytes_outside {s : State} {a c : Nat} {bs : List Byte} (h : c < a ∨ a + bs.length ≤ c) :
    (s.placeBytes a bs).memRead c = s.memRead c := by
  induction bs generalizing s a with
  | nil => rfl
  | cons b bs ih =>
    simp only [List.length_cons] at h
    rw [State.placeBytes, ih (by omega), memRead_memWrite_ne (by omega)]

/-- Bytes placed inside memory are read back (rule R121). -/
theorem memRead_placeBytes {s : State} {a : Nat} {bs : List Byte} (hm : Memory.wf s.mem)
    (h : a + bs.length ≤ s.memSize) (k : Nat) (hk : k < bs.length) :
    (s.placeBytes a bs).memRead (a + k) = some bs[k] := by
  induction bs generalizing s a k with
  | nil => simp at hk
  | cons b bs ih =>
    simp only [List.length_cons] at h hk
    rw [State.placeBytes]
    have hw : Memory.wf (s.memWrite a b).mem := by
      unfold State.memWrite
      split
      · exact Memory.wf_write a b hm
      · exact hm
    cases k with
    | zero =>
      rw [memRead_placeBytes_outside (by omega)]
      exact memRead_memWrite_same hm (by omega)
    | succ k =>
      have := ih hw (a := a + 1) (by simp; omega) k (by omega)
      simpa [Nat.add_assoc, Nat.add_comm 1 k] using this

/-! ## Decoding at `pc` -/

/-- The decoder's rejection at `pc`, in terms of `MEM_SIZE` (rules R72 to R75, R103). -/
theorem decoded_eq_outOfRange {s : State} {addr : Nat} (h : s.decoded = .outOfRange addr) :
    (addr = s.pc ∧ s.memSize ≤ s.pc) ∨
    (addr = s.memSize ∧ s.pc < s.memSize ∧ s.memSize ≤ s.pc + 2) := by
  rcases decodeFrom_eq_outOfRange h with ⟨rfl, h0⟩ | ⟨op, h0, -, rfl, h1⟩ | ⟨op, a, h0, -, h1, rfl, h2⟩
  · exact .inl ⟨rfl, memRead_eq_none.1 h0⟩
  · have := lt_of_memRead h0
    have := memRead_eq_none.1 h1
    exact .inr (by omega)
  · have := lt_of_memRead h1
    have := memRead_eq_none.1 h2
    exact .inr (by omega)

/-- Decoding depends on memory, its size and `pc` alone (rule R76). -/
theorem decoded_congr {s t : State} (hsize : s.memSize = t.memSize) (hmem : s.mem = t.mem) (hpc : s.pc = t.pc) :
    s.decoded = t.decoded := by
  have : s.memRead = t.memRead := by
    funext a
    simp [State.memRead, hsize, hmem]
  simp [State.decoded, this, hpc]

end Sys2Proof.Machine
end

