-- ==== Sys2Proof/Laws/PerInstr.lean ====
section
/-! SUPPORT. Statements about every instruction as syntax, one lemma per constructor. -/

namespace Sys2Proof.Laws

/-- The opcode byte alone fixes how many bytes an instruction has (rules R50, R61): the first byte of a well-formed
instruction's encoding classifies to its tag, and the tag's length is the encoding's. -/
def EncodedLength.Statement (i : Instr) : Prop :=
  i.wf = true → ∃ op rest, encode i = op :: rest ∧ classify op = i.opcode ∧
    i.opcode.length = (encode i).length ∧ 1 ≤ (encode i).length ∧ (encode i).length ≤ 3

theorem EncodedLength.ldi (reg imm : Byte) : EncodedLength.Statement (.ldi reg imm) :=
  fun _ => ⟨_, _, rfl, rfl, rfl, by simp [encode], by simp [encode]⟩

theorem EncodedLength.add (dst src : Byte) : EncodedLength.Statement (.add dst src) :=
  fun _ => ⟨_, _, rfl, rfl, rfl, by simp [encode], by simp [encode]⟩

theorem EncodedLength.jmp (addr : Byte) : EncodedLength.Statement (.jmp addr) :=
  fun _ => ⟨_, _, rfl, rfl, rfl, by simp [encode], by simp [encode]⟩

theorem EncodedLength.sub (dst src : Byte) : EncodedLength.Statement (.sub dst src) :=
  fun _ => ⟨_, _, rfl, rfl, rfl, by simp [encode], by simp [encode]⟩

theorem EncodedLength.hlt : EncodedLength.Statement .hlt :=
  fun _ => ⟨_, _, rfl, rfl, rfl, by simp [encode], by simp [encode]⟩

theorem EncodedLength.unrecognized (op : Byte) : EncodedLength.Statement (.unrecognized op) :=
  fun h => ⟨_, _, rfl, classify_of_not_known (wf_unrecognized.1 h), rfl, by simp [encode], by simp [encode]⟩

end Sys2Proof.Laws
end

