-- ==== Sys2Proof/Laws/Step.lean ====
section
/-! SUPPORT. What one step can do, said once. -/

namespace Sys2Proof.Machine

/-- What the executor changes, instruction by instruction: registers and `pc` and nothing else, or a stop. -/
theorem exec_cases (i : Instr) (s : State) :
    (∃ t, exec i s = .next t ∧ t = { s with x := t.x, pc := t.pc } ∧
      ((∃ addr, i = .jmp addr ∧ t.x = s.x ∧ t.pc = addr.toNat) ∨ ((encode i).length = 3 ∧ t.pc = s.pc + 3))) ∨
    (i = .hlt ∧ exec i s = .next (s.stop .halt s.pc)) ∨
    (∃ op, i = .unrecognized op ∧ exec i s = .next (s.stop .unrecognized s.pc)) := by
  cases i with
  | ldi reg imm =>
    refine .inl ⟨_, rfl, ?_, .inr ⟨rfl, ?_⟩⟩
    · rw [writeOperand_eq]
      rfl
    · rw [writeOperand_eq]
      rfl
  | add dst src =>
    refine .inl ⟨_, rfl, ?_, .inr ⟨rfl, ?_⟩⟩
    · rw [combine_eq]
      rfl
    · rw [combine_eq]
      rfl
  | sub dst src =>
    refine .inl ⟨_, rfl, ?_, .inr ⟨rfl, ?_⟩⟩
    · rw [combine_eq]
      rfl
    · rw [combine_eq]
      rfl
  | jmp addr => exact .inl ⟨_, rfl, rfl, .inl ⟨addr, rfl, rfl, rfl⟩⟩
  | hlt => exact .inr (.inl ⟨rfl, rfl⟩)
  | unrecognized op => exact .inr (.inr ⟨op, rfl, rfl⟩)

theorem step_stopped {s : State} (h : s.runState = .stopped) : step s = .fault .stopped := by
  simp [step, h]

theorem step_outOfRange {s : State} {a : Nat} (h : s.runState = .running) (hd : s.decoded = .outOfRange a) :
    step s = .next (s.stop .outOfRange a) := by
  simp [step, h, hd]

theorem step_instr {s : State} {i : Instr} (h : s.runState = .running) (hd : s.decoded = .instr i) :
    step s = exec i s := by
  simp [step, h, hd]

/-- Inversion: a next state comes from a RUNNING state, by an out-of-range stop or by the executor. -/
theorem step_eq_next {s t : State} (h : step s = .next t) :
    s.runState = .running ∧
      ((∃ a, s.decoded = .outOfRange a ∧ t = s.stop .outOfRange a) ∨
       (∃ i, s.decoded = .instr i ∧ exec i s = .next t)) := by
  unfold step at h
  split at h
  · cases h
  · next hr =>
    refine ⟨hr, ?_⟩
    split at h
    · next a hd => exact .inl ⟨a, hd, by cases h; rfl⟩
    · next i hd => exact .inr ⟨i, hd, h⟩

/-- An instruction placed at `pc` of a RUNNING machine with room for it is the one the next step runs. -/
theorem step_withFetchWord {s : State} {nbits w : Nat} {i : Instr} (hr : s.runState = .running)
    (hm : Memory.wf s.mem) (hroom : s.pc + 3 ≤ s.memSize) (hi : decodeTableWord nbits w = some i) :
    step (s.withFetchWord nbits w) = exec i (s.withFetchWord nbits w) := by
  have hlen : (tableBytes nbits w).length = 3 := rfl
  have hpc : (s.withFetchWord nbits w).pc = s.pc := by
    unfold State.withFetchWord
    rw [placeBytes_eq]
  refine step_instr (by unfold State.withFetchWord; rw [placeBytes_eq]; exact hr) ?_
  have hd : decodeBytes (tableBytes nbits w) = .instr i := by
    unfold decodeTableWord at hi
    split at hi
    · next j hj => rw [hj]; simpa using hi
    · cases hi
  have hread : ∀ k, k < 3 → (tableBytes nbits w)[k]? = (s.withFetchWord nbits w).memRead (s.pc + k) := by
    intro k hk
    rw [State.withFetchWord, memRead_placeBytes hm (by omega) k (by omega), List.getElem?_eq_getElem]
  rw [State.decoded, hpc]
  exact decodeFrom_instr_of_reads (hread 0 (by omega)) (hread 1 (by omega)) (hread 2 (by omega)) hd

end Sys2Proof.Machine
end

