-- ==== Sys2Proof/Laws/Run.lean ====
section
/-! SUPPORT. Cycles one after another, and the run loop: how each unfolds by one cycle, how cycles compose, and how the
two are related. -/

namespace Sys2Proof.Machine

@[simp] theorem runCycles_zero (s : State) : runCycles 0 s = .next s := rfl

/-- Inversion: one cycle more is a step and then the rest. -/
theorem runCycles_succ_eq_next {n : Nat} {s u : State} :
    runCycles (n + 1) s = .next u ↔ ∃ t, step s = .next t ∧ runCycles n t = .next u := by
  rw [runCycles]
  cases step s <;> simp

theorem runCycles_succ_of_step {n : Nat} {s t : State} (h : step s = .next t) :
    runCycles (n + 1) s = runCycles n t := by
  simp [runCycles, h]

/-- Cycles compose. -/
theorem runCycles_add {n m : Nat} {s t : State} (h : runCycles n s = .next t) :
    runCycles (n + m) s = runCycles m t := by
  induction n generalizing s with
  | zero =>
    rw [runCycles_zero, Host.Outcome.next.injEq] at h
    rw [Nat.zero_add, h]
  | succ n ih =>
    obtain ⟨u, hu, h⟩ := runCycles_succ_eq_next.1 h
    rw [Nat.add_right_comm, runCycles_succ_of_step hu, ih h]

/-- A longer run of cycles passes through every shorter one. -/
theorem runCycles_prefix {n m : Nat} {s u : State} (h : runCycles (n + m) s = .next u) :
    ∃ t, runCycles n s = .next t ∧ runCycles m t = .next u := by
  induction n generalizing s with
  | zero => exact ⟨s, rfl, by rwa [Nat.zero_add] at h⟩
  | succ n ih =>
    rw [Nat.add_right_comm] at h
    obtain ⟨t, ht, h⟩ := runCycles_succ_eq_next.1 h
    obtain ⟨v, hv, h⟩ := ih h
    exact ⟨v, runCycles_succ_eq_next.2 ⟨t, ht, hv⟩, h⟩

/-- What every step keeps, any number of cycles keeps. -/
theorem runCycles_keeps {P : State → Prop} (hstep : ∀ s t, P s → step s = .next t → P t) {n : Nat} {s t : State}
    (hs : P s) (h : runCycles n s = .next t) : P t := by
  induction n generalizing s with
  | zero =>
    cases h
    exact hs
  | succ n ih =>
    obtain ⟨u, hu, h⟩ := runCycles_succ_eq_next.1 h
    exact ih (hstep s u hs hu) h

/-- The model's cycles are the host's. -/
theorem runCycles_eq_core_run (n : Nat) (s : State) : Host.Core.run Sys2Proof.core n s = runCycles n s := by
  induction n generalizing s with
  | zero => rfl
  | succ n ih =>
    cases h : step s with
    | next t =>
      have hc : Sys2Proof.core.step s = .next t := h
      simp only [Host.Core.run, hc, runCycles, h]
      exact ih t
    | fault r =>
      have hc : Sys2Proof.core.step s = .fault r := h
      simp only [Host.Core.run, hc, runCycles, h]
      rfl
    | refused r =>
      have hc : Sys2Proof.core.step s = .refused r := h
      simp only [Host.Core.run, hc, runCycles, h]
      rfl

theorem runLoop_stopped {s : State} (h : s.runState = .stopped) (n : Nat) : runLoop n s = some s := by
  cases n <;> simp [runLoop, h]

theorem runLoop_zero_running {s : State} (h : s.runState = .running) : runLoop 0 s = none := by
  simp [runLoop, h]

theorem runLoop_succ_of_step {n : Nat} {s t : State} (h : step s = .next t) : runLoop (n + 1) s = runLoop n t := by
  simp [runLoop, (step_eq_next h).1, h]

/-- Cycles that lead to a STOPPED state are a run that ends there. -/
theorem runLoop_of_runCycles {n : Nat} {s t : State} (h : runCycles n s = .next t) (ht : t.runState = .stopped) :
    runLoop n s = some t := by
  induction n generalizing s with
  | zero =>
    cases h
    exact runLoop_stopped ht 0
  | succ n ih =>
    obtain ⟨u, hu, h⟩ := runCycles_succ_eq_next.1 h
    rw [runLoop_succ_of_step hu, ih h]

end Sys2Proof.Machine
end

