-- ==== Sys2Proof/Tests/Slice0.lean ====
section
/-! SUPPORT. The model's own tests. Expected results are the spec's: the encoding vectors E1 to E12 and the one-cycle
vectors V1 to V64 of 95_test_vectors.md, each cited by its name. Then the witnesses: for each statement with
hypotheses, concrete values that meet them together, clause by clause at the boundaries. -/

namespace Sys2Proof.Machine

/-! ## Helpers -/

/-- A RUNNING machine of `memSize` cells, zero but for its registers, its `pc`, and the bytes that stand at `pc`. -/
def machineAt (memSize : Nat) (x : Vector Byte 4) (pc : Nat) (bytes : List Byte) : State :=
  { State.created memSize with x := x, pc := pc }.placeBytes pc bytes

/-- What the one-cycle vectors show of an outcome. -/
def seen : Host.Outcome State Fault Refusal → Option (Vector Byte 4 × Nat × RunState × StopReason × Nat)
  | .next t => some (t.x, t.pc, t.runState, t.stopReason, t.stopAddr)
  | .fault _ => none
  | .refused _ => none

/-! ## Well-formedness refuses an ill-formed term -/

theorem test_wf_refuses_known_opcodes :
    ∀ op ∈ Instr.knownOpcodes, (Instr.unrecognized op).wf = false := by decide

theorem test_wf_accepts_the_neighbours :
    (Instr.unrecognized 0x00#8).wf = true ∧ (Instr.unrecognized 0x05#8).wf = true ∧
    (Instr.unrecognized 0xFE#8).wf = true ∧ (Instr.ldi 0x07#8 0x09#8).wf = true := by decide

/-! ## Decoding: words written out from the encoding tables (rules R51 to R53, R58) -/

/-- E1, the sample program's first instruction, written as the table numbers its bits. -/
theorem test_decode_E1_ldi :
    decodeTableWord 24 0b00001010_00000000_00000001 = some (.ldi 0#8 10#8) := by decide

/-- E3: an invalid register index decodes. -/
theorem test_decode_E3_ldi_invalid_index : decodeBytes [0x01#8, 0x07#8, 0x09#8] = .instr (.ldi 7#8 9#8) := by decide

/-- E4. -/
theorem test_decode_E4_add :
    decodeTableWord 24 0b00000001_00000000_00000010 = some (.add 0#8 1#8) := by decide

/-- E5: both indices invalid, neither masked. -/
theorem test_decode_E5_add : decodeBytes [0x02#8, 0xC8#8, 0xC9#8] = .instr (.add 200#8 201#8) := by decide

/-- E6: SUB is opcode 4. -/
theorem test_decode_E6_sub :
    decodeTableWord 24 0b00000010_00000000_00000100 = some (.sub 0#8 2#8) := by decide

/-- E7: JMP is opcode 3 and reads one operand byte. -/
theorem test_decode_E7_jmp :
    decodeTableWord 16 0b00001000_00000011 = some (.jmp 8#8) ∧ decodeBytes [0x03#8, 0x08#8] = .instr (.jmp 8#8) := by
  decide

/-- E9: HLT reads no operand byte. -/
theorem test_decode_E9_hlt : decodeTableWord 8 0b11111111 = some .hlt ∧ decodeBytes [0xFF#8] = .instr .hlt := by decide

/-- E10 to E12: unrecognised bytes beside the known ones. -/
theorem test_decode_E10_E11_E12 :
    decodeBytes [0x00#8] = .instr (.unrecognized 0x00#8) ∧ decodeBytes [0x05#8] = .instr (.unrecognized 0x05#8) ∧
    decodeBytes [0xFE#8] = .instr (.unrecognized 0xFE#8) := by decide

/-- Decode near the top of memory, `M = 16` (95_test_vectors.md section 2). -/
theorem test_decode_near_the_top :
    (machineAt 16 (Vector.replicate 4 0#8) 14 [0x03#8, 0x05#8]).decoded = .instr (.jmp 5#8) ∧
    (machineAt 16 (Vector.replicate 4 0#8) 14 [0x04#8, 0x00#8]).decoded = .outOfRange 16 ∧
    (machineAt 16 (Vector.replicate 4 0#8) 15 [0x03#8]).decoded = .outOfRange 16 ∧
    (machineAt 16 (Vector.replicate 4 0#8) 200 []).decoded = .outOfRange 200 := by decide

/-- Rule R59: every byte but five different ones is unrecognised, which leaves 251. -/
theorem test_all_but_five_bytes_unrecognised :
    (∀ op : Byte, classify op = .unrecognized ↔ op ∉ [0x01#8, 0x02#8, 0x03#8, 0x04#8, 0xFF#8]) ∧
    [0x01#8, 0x02#8, 0x03#8, 0x04#8, 0xFF#8].Nodup := by decide

/-- The notation of rule R62, for the words of E1 and E6 and the invalid index of E3. -/
theorem test_asm :
    (Instr.ldi 0#8 10#8).asm = "LDI r0, 10" ∧ (Instr.sub 0#8 2#8).asm = "SUB r0, r2" ∧
    (Instr.ldi 7#8 9#8).asm = "LDI r7, 9" ∧ Instr.hlt.asm = "HLT" := by decide

/-! ## One-cycle vectors -/

/-- V6: LDI in the last three cells leaves `pc = 1024`, RUNNING. -/
theorem test_ldi_V6 : seen (step (machineAt 1024 #v[0, 0, 0, 0] 1021 [0x01#8, 0x01#8, 0x5A#8])) =
    some (#v[0, 90, 0, 0], 1024, .running, .none, 0) := by decide

/-- V4: index 4 names no register. -/
theorem test_ldi_V4 : seen (step (machineAt 1024 #v[1, 2, 3, 4] 12 [0x01#8, 0x04#8, 0x09#8])) =
    some (#v[1, 2, 3, 4], 15, .running, .none, 0) := by decide

/-- V14: one register twice, wrapping. -/
theorem test_add_V14 : seen (step (machineAt 1024 #v[0, 129, 0, 0] 0 [0x02#8, 0x01#8, 0x01#8])) =
    some (#v[0, 2, 0, 0], 3, .running, .none, 0) := by decide

/-- V17: an invalid source leaves a valid destination alone. -/
theorem test_add_V17 : seen (step (machineAt 1024 #v[1, 2, 3, 4] 0 [0x02#8, 0x00#8, 0x04#8])) =
    some (#v[1, 2, 3, 4], 3, .running, .none, 0) := by decide

/-- V27: operand order, and 10 - 20 = 246. -/
theorem test_sub_V27 : seen (step (machineAt 1024 #v[20, 10, 0, 0] 0 [0x04#8, 0x01#8, 0x00#8])) =
    some (#v[20, 246, 0, 0], 3, .running, .none, 0) := by decide

/-- V24: one register twice. -/
theorem test_sub_V24 : seen (step (machineAt 1024 #v[0, 0, 156, 0] 0 [0x04#8, 0x02#8, 0x02#8])) =
    some (#v[0, 0, 0, 0], 3, .running, .none, 0) := by decide

/-- V34: JMP in the last two cells reads no third byte. -/
theorem test_jmp_V34 : seen (step (machineAt 1024 #v[1, 2, 3, 4] 1022 [0x03#8, 0x07#8])) =
    some (#v[1, 2, 3, 4], 7, .running, .none, 0) := by decide

/-- V44: a target beyond memory completes. -/
theorem test_jmp_V44 : seen (step (machineAt 16 #v[1, 2, 3, 4] 0 [0x03#8, 0xC8#8])) =
    some (#v[1, 2, 3, 4], 200, .running, .none, 0) := by decide

/-- V36: HLT in the last cell. -/
theorem test_hlt_V36 : seen (step (machineAt 1024 #v[9, 9, 9, 9] 1023 [0xFF#8])) =
    some (#v[9, 9, 9, 9], 1023, .stopped, .halt, 1023) := by decide

/-- V52: an unrecognised byte in the last cell is not an out-of-range stop. -/
theorem test_unrecognized_V52 : seen (step (machineAt 1024 #v[1, 2, 3, 4] 1023 [0x80#8])) =
    some (#v[1, 2, 3, 4], 1023, .stopped, .unrecognized, 1023) := by decide

/-- V45: the opcode fetch out of range reports its own address. -/
theorem test_outOfRange_V45 : seen (step (machineAt 16 #v[1, 2, 3, 4] 200 [])) =
    some (#v[1, 2, 3, 4], 200, .stopped, .outOfRange, 200) := by decide

/-- V46: an invalid index does not suppress the out-of-range stop. -/
theorem test_outOfRange_V46 : seen (step (machineAt 16 #v[1, 2, 3, 4] 14 [0x01#8, 0x09#8])) =
    some (#v[1, 2, 3, 4], 14, .stopped, .outOfRange, 16) := by decide

/-- V61: `Init` places the image and leaves zeros after it. -/
theorem test_init_V61 : (State.init 1024 [0xFF#8]).map (fun s => (s.memRead 0, s.memRead 1, s.memRead 1024)) =
    some (some 0xFF#8, some 0x00#8, none) := by decide

/-- V62: an image of `M + 1` bytes is refused (here `M = 2`), and so is a memory of no cells (U15). -/
theorem test_init_V62 : State.init 2 [0x01#8, 0x00#8, 0x0A#8] = none ∧ State.init 0 [] = none := by decide

/-- The word placed for the next fetch is what the first step after reset runs. -/
theorem test_withFetchWord : seen (step (State.reset.withFetchWord 24 0b00001010_00000000_00000001)) =
    some (#v[10, 0, 0, 0], 3, .running, .none, 0) := by decide

/-- The codes of rules R18 and R19. -/
theorem test_status_codes :
    RunState.running.code = 0#1 ∧ RunState.stopped.code = 1#1 ∧ StopReason.none.code = 0#2 := by decide

/-! ## Witnesses for the statements' hypotheses -/

/-- A state that meets the invariant, two cells of three zero, about to run HLT in the last one. -/
theorem inv_machine_at_its_last_cell : (machineAt 3 #v[1, 2, 3, 4] 2 [0xFF#8]).Inv :=
  ⟨by decide, by decide, by decide, by decide, by decide, by decide, by decide, trivial⟩

theorem witness_InitBuildsTheResetState :
    (1 ≤ 3 ∧ [0x03#8, 0x00#8, 0x07#8].length ≤ 3 ∧ 2 < [0x03#8, 0x00#8, 0x07#8].length) ∧
    (1 ≤ 3 ∧ [0x03#8].length ≤ 3 ∧ [0x03#8].length ≤ 1 ∧ 1 < 3) ∧ 2 < [0x03#8, 0x00#8, 0x07#8].length := by decide

theorem witness_InitSatisfiesInvariant : ∃ s, State.init 2 [0x03#8, 0x00#8] = some s := ⟨_, rfl⟩

theorem witness_EmptyImageStopsInItsFirstCycle : 1 ≤ 1 := by decide

theorem witness_StepKeepsInvariant : ∃ s t : State, s.Inv ∧ step s = .next t :=
  ⟨_, _, inv_machine_at_its_last_cell, step_instr rfl (by decide : _ = Decoded.instr .hlt)⟩

theorem witness_PcAndStopAddrFitPcBits : ∃ s : State, s.Inv := ⟨_, inv_machine_at_its_last_cell⟩

/-- The cycle clause with room for three bytes, and both out-of-range clauses; the highest valid and the lowest invalid
index. -/
theorem witness_LdiLoadsTheImmediate :
    (let s := machineAt 5 #v[1, 2, 3, 4] 2 [0x01#8, 0x03#8, 0x09#8]
     s.runState = .running ∧ s.memRead s.pc = some 0x01#8 ∧ s.memRead (s.pc + 1) = some 0x03#8 ∧
       s.memRead (s.pc + 2) = some 0x09#8) ∧
    (let s := machineAt 5 #v[1, 2, 3, 4] 4 [0x01#8]
     s.runState = .running ∧ s.memRead s.pc = some 0x01#8 ∧ s.pc + 1 = s.memSize) ∧
    (let s := machineAt 5 #v[1, 2, 3, 4] 3 [0x01#8]
     s.runState = .running ∧ s.memRead s.pc = some 0x01#8 ∧ s.pc + 2 = s.memSize) := by decide

theorem witness_AddSumsTheRegisters :
    (0x03#8).toNat = (3 : Fin 4).val ∧ (0x00#8).toNat = (0 : Fin 4).val ∧ 4 ≤ (0x04#8).toNat ∧
    (let s := machineAt 5 #v[1, 2, 3, 4] 2 [0x02#8, 0x03#8, 0x04#8]
     s.runState = .running ∧ s.memRead s.pc = some 0x02#8 ∧ s.memRead (s.pc + 1) = some 0x03#8 ∧
       s.memRead (s.pc + 2) = some 0x04#8) ∧
    (let s := machineAt 5 #v[1, 2, 3, 4] 4 [0x02#8]
     s.runState = .running ∧ s.memRead s.pc = some 0x02#8 ∧ s.pc + 1 = s.memSize) ∧
    (let s := machineAt 5 #v[1, 2, 3, 4] 3 [0x02#8]
     s.runState = .running ∧ s.memRead s.pc = some 0x02#8 ∧ s.pc + 2 = s.memSize) := by decide

theorem witness_SubSubtractsTheSource :
    (0x03#8).toNat = (3 : Fin 4).val ∧ (0x00#8).toNat = (0 : Fin 4).val ∧ 4 ≤ (0x04#8).toNat ∧
    (let s := machineAt 5 #v[1, 2, 3, 4] 2 [0x04#8, 0x03#8, 0x04#8]
     s.runState = .running ∧ s.memRead s.pc = some 0x04#8 ∧ s.memRead (s.pc + 1) = some 0x03#8 ∧
       s.memRead (s.pc + 2) = some 0x04#8) ∧
    (let s := machineAt 5 #v[1, 2, 3, 4] 4 [0x04#8]
     s.runState = .running ∧ s.memRead s.pc = some 0x04#8 ∧ s.pc + 1 = s.memSize) ∧
    (let s := machineAt 5 #v[1, 2, 3, 4] 3 [0x04#8]
     s.runState = .running ∧ s.memRead s.pc = some 0x04#8 ∧ s.pc + 2 = s.memSize) := by decide

theorem witness_InvalidIndexIsSilentNoOp :
    4 ≤ (0x04#8).toNat ∧ 4 ≤ (0xFF#8).toNat ∧
    (let s := machineAt 5 #v[1, 2, 3, 4] 3 [0x04#8, 0x04#8]
     s.runState = .running ∧ s.memRead s.pc = some 0x04#8 ∧ 0x04#8 ∈ [0x01#8, 0x02#8, 0x04#8] ∧
       s.memRead (s.pc + 1) = some 0x04#8 ∧ s.pc + 2 = s.memSize) := by decide

/-- The operands exist; 255 is the last sum that does not wrap and 256 the first that does; equal operands do not
borrow and 1 - 2 does. -/
theorem witness_ArithmeticWrapsAt256 :
    (0x03#8).toNat = (3 : Fin 4).val ∧ (0x00#8).toNat = (0 : Fin 4).val ∧
    (let s := machineAt 5 #v[1, 2, 254, 255] 0 []
     (s.reg 0).toNat + (s.reg 2).toNat = 255 ∧ (s.reg 0).toNat + (s.reg 3).toNat = 256 ∧
       (s.reg 0).toNat ≤ (s.reg 0).toNat ∧ (s.reg 0).toNat < (s.reg 1).toNat) := by decide

theorem witness_SameRegisterTwice : (0x03#8).toNat = (3 : Fin 4).val := by decide

/-- The completing cycle with the first target that does not exist, and the last cell. -/
theorem witness_JmpSetsPc :
    (let s := machineAt 5 #v[1, 2, 3, 4] 3 [0x03#8, 0x05#8]
     s.runState = .running ∧ s.memRead s.pc = some 0x03#8 ∧ s.memRead (s.pc + 1) = some 0x05#8 ∧
       s.memSize ≤ (0x05#8).toNat) ∧
    (let s := machineAt 5 #v[1, 2, 3, 4] 4 [0x03#8]
     s.runState = .running ∧ s.memRead s.pc = some 0x03#8 ∧ s.pc + 1 = s.memSize) := by decide

theorem witness_HltStops :
    (let s := machineAt 5 #v[1, 2, 3, 4] 4 [0xFF#8]
     s.runState = .running ∧ s.memRead s.pc = some 0xFF#8) := by decide

theorem witness_UnrecognizedStops :
    0x05#8 ∉ [0x01#8, 0x02#8, 0x03#8, 0x04#8, 0xFF#8] ∧
    (let s := machineAt 5 #v[1, 2, 3, 4] 4 [0x05#8]
     s.runState = .running ∧ s.memRead s.pc = some 0x05#8) := by decide

theorem witness_RegisterOperationFrame :
    (∃ t, exec (.ldi 0x03#8 0x09#8) State.reset = .next t) ∧ (∃ t, exec (.add 0x03#8 0x04#8) State.reset = .next t) ∧
    (∃ t, exec (.sub 0x04#8 0x03#8) State.reset = .next t) ∧ (0 : Fin 4).val ≠ (0x03#8).toNat :=
  ⟨⟨_, rfl⟩, ⟨_, rfl⟩, ⟨_, rfl⟩, by decide⟩

theorem witness_ControlFrame :
    (∃ t, exec (.jmp 0xFF#8) State.reset = .next t) ∧ (∃ t, exec .hlt State.reset = .next t) ∧
    (∃ t, exec (.unrecognized 0x00#8) State.reset = .next t) :=
  ⟨⟨_, rfl⟩, ⟨_, rfl⟩, ⟨_, rfl⟩⟩

/-- Two states that differ in registers `ADD r0, r3` does not read; it writes register 0 and not register 1. -/
theorem witness_OnlyNamedRegistersAreReadOrWritten :
    (∀ r, readsReg r (.add 0x00#8 0x03#8) →
      (#v[1, 9, 9, 4] : Vector Byte 4)[r] = (machineAt 5 #v[1, 2, 3, 4] 0 []).reg r) ∧
    writesReg 0 (.add 0x00#8 0x03#8) ∧ ¬ writesReg 1 (.add 0x00#8 0x03#8) := by
  refine ⟨?_, rfl, by simp [writesReg]⟩
  intro r hr
  have : r = 0 ∨ r = 3 := by
    rcases hr with h | h
    · exact .inl (Fin.ext h)
    · exact .inr (Fin.ext h)
  rcases this with rfl | rfl <;> decide

theorem witness_MemoryIsConstantOverARun : ∃ t, runCycles 2 (machineAt 5 #v[1, 2, 3, 4] 0 [0x03#8, 0x00#8]) = .next t :=
  ⟨_, (runCycles_succ_of_step (step_instr rfl (by decide : _ = Decoded.instr (.jmp 0#8)))).trans
    (runCycles_succ_of_step (step_instr rfl (by decide : _ = Decoded.instr (.jmp 0#8))))⟩

theorem witness_DecodeOfEncode :
    (Instr.unrecognized 0xFE#8).wf = true ∧ (Instr.jmp 0xFF#8).wf = true ∧
    ∀ k, (h : k < (encode (.jmp 0xFF#8)).length) → [0x03#8, 0xFF#8][0 + k]? = some (encode (.jmp 0xFF#8))[k] := by
  decide

theorem witness_EncodeOfDecode : decodeBytes [0x03#8, 0x08#8, 0x77#8] = .instr (.jmp 0x08#8) := by decide

/-- JMP's bytes with another byte after them, and with the end of memory after them. -/
theorem witness_DecodeReadsOnlyTheInstructionsBytes :
    decodeFrom (fun a => [0x03#8, 0x08#8, 0x77#8][a]?) 0 = .instr (.jmp 0x08#8) ∧
    ∀ k, k < (encode (.jmp 0x08#8)).length → [0x03#8, 0x08#8][0 + k]? = [0x03#8, 0x08#8, 0x77#8][0 + k]? := by decide

theorem witness_StepRunsTheDecodedInstruction :
    (let s := machineAt 5 #v[1, 2, 3, 4] 3 [0x03#8, 0x05#8]
     s.runState = .running ∧ s.decoded = .instr (.jmp 0x05#8) ∧ (Instr.jmp 0x05#8).wf = true ∧
       ∀ k, (h : k < (encode (.jmp 0x05#8)).length) → s.memRead (s.pc + k) = some (encode (.jmp 0x05#8))[k]) := by
  decide

theorem witness_CycleIsThePseudocode : State.reset.runState = .running := rfl

theorem witness_PcAfterACycle :
    (let s := machineAt 5 #v[1, 2, 3, 4] 2 [0x02#8, 0x03#8, 0x04#8]
     s.runState = .running ∧ s.decoded = .instr (.add 0x03#8 0x04#8)) ∧
    (let s := machineAt 5 #v[1, 2, 3, 4] 5 []
     s.runState = .running ∧ s.decoded = .outOfRange 5) := by decide

/-- LDI at 253 falls through to 256, the lowest address no jump reaches. -/
theorem witness_HighAddressesAreEnteredByFallingThrough :
    ∃ t, step (machineAt 1024 #v[1, 2, 3, 4] 253 [0x01#8, 0x00#8, 0x07#8]) = .next t ∧ t.runState = .running ∧
      256 ≤ t.pc :=
  ⟨_, step_instr rfl (by decide : _ = Decoded.instr (.ldi 0#8 7#8)), by decide, by decide⟩

theorem witness_RunningMachineAlwaysSteps : (machineAt 5 #v[1, 2, 3, 4] 9 []).runState = .running := by decide

theorem witness_StoppedMachineHasNoCycle : (State.reset.stop .halt 0).runState = .stopped := rfl

theorem witness_RunEndsInAFinalStoppedState : ∃ t, runLoop 1 (machineAt 5 #v[1, 2, 3, 4] 0 [0xFF#8]) = some t :=
  Option.isSome_iff_exists.1 (by decide)

theorem witness_JumpToItselfNeverEnds :
    (let s := machineAt 5 #v[1, 2, 3, 4] 3 [0x03#8, 0x03#8]
     s.runState = .running ∧ s.memRead s.pc = some 0x03#8 ∧ s.memRead (s.pc + 1) = some 0x03#8 ∧
       (0x03#8).toNat = s.pc) := by decide

theorem witness_RevisitedPcNeverEnds :
    1 ≤ 1 ∧ ∃ t, runCycles 1 (machineAt 5 #v[1, 2, 3, 4] 3 [0x03#8, 0x03#8]) = .next t ∧ t.runState = .running ∧
      t.pc = (machineAt 5 #v[1, 2, 3, 4] 3 [0x03#8, 0x03#8]).pc :=
  ⟨le_rfl, _, runCycles_succ_of_step (step_instr rfl (by decide : _ = Decoded.instr (.jmp 3#8))), by decide, by decide⟩

theorem witness_StoppingRunIsBounded :
    ∃ (n : Nat) (s t : State), s.Inv ∧ runLoop n s = some t :=
  have ⟨t, ht⟩ := Option.isSome_iff_exists.1 (by decide : (runLoop 1 (machineAt 3 #v[1, 2, 3, 4] 2 [0xFF#8])).isSome)
  ⟨1, _, t, inv_machine_at_its_last_cell, ht⟩

theorem witness_CompletedExactlyAtAHaltByte :
    ∃ (n : Nat) (s t : State), s.Inv ∧ runLoop n s = some t := witness_StoppingRunIsBounded

/-- One cycle of each kind of stop, and one that does not stop. -/
theorem witness_OnlyThreeConditionsStop :
    (∃ t, step (machineAt 5 #v[1, 2, 3, 4] 4 [0xFF#8]) = .next t) ∧
    (∃ t, step (machineAt 5 #v[1, 2, 3, 4] 4 [0xFE#8]) = .next t) ∧
    (∃ t, step (machineAt 5 #v[1, 2, 3, 4] 5 []) = .next t) ∧
    (∃ t, step (machineAt 5 #v[1, 2, 3, 4] 3 [0x04#8]) = .next t) ∧
    (∃ t, step (machineAt 5 #v[1, 2, 3, 4] 4 [0x03#8]) = .next t) ∧
    (∃ t, step (machineAt 5 #v[1, 2, 3, 4] 2 [0x04#8]) = .next t) ∧
    (machineAt 5 #v[1, 2, 3, 4] 5 []).runState = .running :=
  ⟨⟨_, step_instr rfl (by decide : _ = Decoded.instr .hlt)⟩,
   ⟨_, step_instr rfl (by decide : _ = Decoded.instr (.unrecognized 0xFE#8))⟩,
   ⟨_, step_outOfRange rfl (by decide : _ = Decoded.outOfRange 5)⟩,
   ⟨_, step_outOfRange rfl (by decide : _ = Decoded.outOfRange 5)⟩,
   ⟨_, step_outOfRange rfl (by decide : _ = Decoded.outOfRange 5)⟩,
   ⟨_, step_instr rfl (by decide : _ = Decoded.instr (.sub 0#8 0#8))⟩, rfl⟩

/-- Each row of rule R103's table at its boundary. -/
theorem witness_OutOfRangeCases :
    (let s := machineAt 5 #v[1, 2, 3, 4] 5 []
     s.runState = .running ∧ s.memSize ≤ s.pc) ∧
    (∀ op ∈ [0x04#8, 0xFF#8, 0x05#8],
      (machineAt 5 #v[1, 2, 3, 4] 4 [op]).memRead 4 = some op ∧ (machineAt 5 #v[1, 2, 3, 4] 4 [op]).pc + 1 = 5) ∧
    (∀ op ∈ [0x04#8, 0x03#8],
      (machineAt 5 #v[1, 2, 3, 4] 3 [op]).memRead 3 = some op ∧ (machineAt 5 #v[1, 2, 3, 4] 3 [op]).pc + 2 = 5) ∧
    (let s := machineAt 5 #v[1, 2, 3, 4] 2 [0x04#8]
     s.runState = .running ∧ s.pc + 3 ≤ s.memSize) := by decide

/-- Each check of rule R106 at its boundary. -/
theorem witness_ChecksAreMadeInOrder :
    (let s := machineAt 5 #v[1, 2, 3, 4] 5 []
     s.runState = .running ∧ s.memSize ≤ s.pc) ∧
    (∀ op ∈ [0xFF#8, 0xFE#8, 0x04#8, 0x03#8],
      (machineAt 5 #v[1, 2, 3, 4] 4 [op]).memRead 4 = some op ∧ 5 ≤ (machineAt 5 #v[1, 2, 3, 4] 4 [op]).pc + 1) ∧
    (let s := machineAt 5 #v[1, 2, 3, 4] 3 [0x04#8]
     s.memRead s.pc = some 0x04#8 ∧ s.pc + 1 < s.memSize ∧ s.memSize ≤ s.pc + 2) ∧
    (let s := machineAt 5 #v[1, 2, 3, 4] 2 [0x04#8]
     s.memRead s.pc = some 0x04#8 ∧ s.pc + 2 < s.memSize) ∧
    (let s := machineAt 5 #v[1, 2, 3, 4] 3 [0x03#8]
     s.memRead s.pc = some 0x03#8 ∧ s.pc + 1 < s.memSize) := by decide

theorem witness_StopsArePrecise :
    ∃ t, (machineAt 5 #v[1, 2, 3, 4] 3 [0x04#8]).runState = .running ∧
      step (machineAt 5 #v[1, 2, 3, 4] 3 [0x04#8]) = .next t ∧ t.runState = .stopped :=
  ⟨_, rfl, step_outOfRange rfl (by decide : _ = Decoded.outOfRange 5), rfl⟩

theorem witness_RunningOffTheEnd :
    (let s := machineAt 5 #v[1, 2, 3, 4] 2 [0x01#8, 0x00#8, 0x07#8]
     s.runState = .running ∧ s.memRead s.pc = some 0x01#8 ∧ s.pc + 3 = s.memSize) ∧
    (let s := machineAt 5 #v[1, 2, 3, 4] 4 []
     s.runState = .running ∧ s.memRead s.pc = some 0x00#8) := by decide

end Sys2Proof.Machine
end

section
/-! PROOFS. The machine as it is created, with nothing loaded: what `Init` of the empty image gives and what its memory
reads as (rules R4, R25, R29). -/

namespace Sys2Proof.Machine

/-- Loading the empty image changes nothing, so `Init` fails only where the memory has no cell (rules R4, R25). -/
theorem init_nil {memSize : Nat} (h : 1 ≤ memSize) : State.init memSize [] = some (State.created memSize) :=
  if_pos ⟨h, Nat.zero_le memSize⟩

/-- Memory is created zero-filled (rule R29). -/
theorem memRead_created_of_lt {memSize a : Nat} (h : a < memSize) : (State.created memSize).memRead a = some 0#8 :=
  memRead_of_lt h

theorem memRead_created_of_ge {memSize a : Nat} (h : memSize ≤ a) : (State.created memSize).memRead a = none :=
  memRead_eq_none.mpr h

/-- Settles O2: `State.reset` is the created machine of 1024 cells, so each part is that machine's own fact. -/
theorem resetIsStockMachineWithEmptyImage : Obligations.ResetIsStockMachineWithEmptyImage := by
  have hinit : State.init 1024 [] = some State.reset := init_nil (by decide)
  have hreg : ∀ i, State.reset.reg i = 0#8 := fun i => reg_created i _
  have hinside : ∀ a, a < 1024 → State.reset.memRead a = some 0#8 := fun _ => memRead_created_of_lt
  have houtside : ∀ a, 1024 ≤ a → State.reset.memRead a = none := fun _ => memRead_created_of_ge
  exact ⟨hinit, hreg, created_pc _, hinside, houtside, created_runState _, created_stopReason _, created_stopAddr _⟩

end Sys2Proof.Machine
end

section
/-! PROOFS. `Init` of any image: the loaded machine is the created one with the image's bytes placed from address 0, so
it differs from it in memory alone, and memory reads as the image and then zeros (rules R25, R29, R121). -/

namespace Sys2Proof.Machine

/-! ## Loading bytes leaves every field but memory as it was -/

section
variable (s : State) (a : Nat) (bs : List Byte)

@[simp] theorem placeBytes_pc : (s.placeBytes a bs).pc = s.pc := by rw [placeBytes_eq]
@[simp] theorem placeBytes_runState : (s.placeBytes a bs).runState = s.runState := by rw [placeBytes_eq]
@[simp] theorem placeBytes_stopReason : (s.placeBytes a bs).stopReason = s.stopReason := by rw [placeBytes_eq]
@[simp] theorem placeBytes_stopAddr : (s.placeBytes a bs).stopAddr = s.stopAddr := by rw [placeBytes_eq]
@[simp] theorem reg_placeBytes (i : Fin 4) : (s.placeBytes a bs).reg i = s.reg i := by
  rw [placeBytes_eq]
  rfl

end

/-! ## When `Init` has a result -/

/-- An image that fits is loaded at address 0 of the created machine (rule R121). -/
theorem init_of_length_le {memSize : Nat} {image : List Byte} (hpos : 1 ≤ memSize) (hfits : image.length ≤ memSize) :
    State.init memSize image = some ((State.created memSize).placeBytes 0 image) :=
  if_pos ⟨hpos, hfits⟩

/-- An image longer than memory is refused (rule R25). -/
theorem init_of_lt_length {memSize : Nat} {image : List Byte} (hlong : memSize < image.length) :
    State.init memSize image = none :=
  if_neg fun hok => hlong.not_ge hok.2

/-! ## What the loaded memory reads as -/

/-- Below the image's length memory reads as the image. -/
theorem memRead_placeBytes_created {memSize a : Nat} {image : List Byte} (hfits : image.length ≤ memSize)
    (ha : a < image.length) : ((State.created memSize).placeBytes 0 image).memRead a = some image[a] := by
  have hread := memRead_placeBytes (s := State.created memSize) Memory.wf_nil (a := 0) (by simpa using hfits) a ha
  rwa [Nat.zero_add] at hread

/-- From the image's length on memory reads as it was created, zero (rule R29). -/
theorem memRead_placeBytes_created_of_ge {memSize a : Nat} {image : List Byte} (ha : image.length ≤ a)
    (hsize : a < memSize) : ((State.created memSize).placeBytes 0 image).memRead a = some 0#8 := by
  rw [memRead_placeBytes_outside (by omega), memRead_created_of_lt hsize]

/-- Settles O1: an image that fits is loaded over the created machine, whose other fields loading leaves alone; a
longer one fails `Init`'s length check. -/
theorem initBuildsTheResetState : Obligations.InitBuildsTheResetState := by
  refine fun memSize image => ⟨fun hpos hfits => ?_, init_of_lt_length⟩
  have himage := fun a (ha : a < image.length) => memRead_placeBytes_created hfits ha
  have hzeros := fun a (ha : image.length ≤ a) (hsize : a < memSize) => memRead_placeBytes_created_of_ge ha hsize
  exact ⟨_, init_of_length_le hpos hfits, by simp, by simp, by simp, himage, hzeros, by simp, by simp, by simp⟩

end Sys2Proof.Machine
end

section
/-! PROOFS. The executor's laws, for every instruction at once: that it always answers a next state, which registers it
may change and what they depend on, and that it leaves memory alone (rules R11, R14, R23, R77). -/

namespace Sys2Proof.Machine

/-! ## The executor on the register operations (rules R85 to R87) -/

section
variable (s : State) (a b : Byte)

theorem exec_ldi : exec (.ldi a b) s = .next ((s.writeOperand a b).advance 3) := rfl
theorem exec_add : exec (.add a b) s = .next ((s.combine sumMod256 a b).advance 3) := rfl
theorem exec_sub : exec (.sub a b) s = .next ((s.combine differenceMod256 a b).advance 3) := rfl

end

/-- The executor always answers a next state: it raises nothing and refuses nothing. -/
theorem exec_total (i : Instr) (s : State) : ∃ t, exec i s = .next t := by
  rcases exec_cases i s with ⟨t, ht, -⟩ | ⟨-, ht⟩ | ⟨_, -, ht⟩ <;> exact ⟨_, ht⟩

section
variable {i : Instr} {s t : State}

/-! ## `pc`, the status fields and memory -/

/-- The three-byte instructions change registers and `pc`, which they advance by 3, and nothing else (rule R14). -/
theorem exec_eq_of_length_three (hlen : (encode i).length = 3) (h : exec i s = .next t) :
    t = { s with x := t.x, pc := s.pc + 3 } := by
  rcases exec_cases i s with ⟨u, hu, hframe, ⟨addr, rfl, -⟩ | ⟨-, hpc⟩⟩ | ⟨rfl, -⟩ | ⟨op, rfl, -⟩
  · cases hlen
  · obtain rfl := Host.Outcome.next.inj (h.symm.trans hu)
    rwa [hpc] at hframe
  · cases hlen
  · cases hlen

/-- No instruction changes memory or its size (rules R4, R23). -/
theorem exec_memory (h : exec i s = .next t) : t.memSize = s.memSize ∧ t.mem = s.mem := by
  rcases exec_cases i s with ⟨u, hu, hframe, -⟩ | ⟨-, hu⟩ | ⟨op, -, hu⟩ <;>
    obtain rfl := Host.Outcome.next.inj (h.symm.trans hu)
  · rw [hframe]
    exact ⟨rfl, rfl⟩
  · exact ⟨rfl, rfl⟩
  · exact ⟨rfl, rfl⟩

/-- A read depends on memory and its size alone (rule R33). -/
theorem memRead_congr (hsize : t.memSize = s.memSize) (hmem : t.mem = s.mem) (a : Nat) :
    t.memRead a = s.memRead a := by
  simp only [State.memRead, hsize, hmem]

theorem memRead_exec (h : exec i s = .next t) (a : Nat) : t.memRead a = s.memRead a :=
  memRead_congr (exec_memory h).1 (exec_memory h).2 a

/-! ## Memory is not read as data -/

theorem writeOperand_withMem (s : State) (m : Memory) (a v : Byte) :
    State.writeOperand { s with mem := m } a v = { s.writeOperand a v with mem := m } := by
  unfold State.writeOperand
  cases regIndex a <;> rfl

theorem combine_withMem (s : State) (m : Memory) (f : Byte → Byte → Byte) (dst src : Byte) :
    State.combine { s with mem := m } f dst src = { s.combine f dst src with mem := m } := by
  unfold State.combine
  cases regIndex dst <;> cases regIndex src <;> rfl

/-- The executor's answer does not depend on memory (rule R23). -/
theorem exec_withMem (h : exec i s = .next t) (m : Memory) :
    exec i { s with mem := m } = .next { t with mem := m } := by
  cases i <;> cases h
  case ldi => rw [exec_ldi, writeOperand_withMem]; rfl
  case add => rw [exec_add, combine_withMem]; rfl
  case sub => rw [exec_sub, combine_withMem]; rfl
  case jmp => rfl
  case hlt => rfl
  case unrecognized => rfl

/-! ## Registers -/

/-- A register the instruction may not write keeps its value (rule R11). -/
theorem reg_exec_of_not_writesReg {r : Fin 4} (hr : ¬ writesReg r i) (h : exec i s = .next t) :
    t.reg r = s.reg r := by
  cases i <;> cases h
  case ldi a v => exact (reg_writeOperand s a v r).trans (if_neg hr)
  case add => exact reg_combine_of_ne s sumMod256 hr
  case sub => exact reg_combine_of_ne s differenceMod256 hr
  case jmp => rfl
  case hlt => rfl
  case unrecognized => rfl

/-- The destination of `combine` depends on the two named registers alone (rules R86 to R88). -/
theorem reg_combine_congr {s u : State} {dst src : Byte} {r : Fin 4} (f : Byte → Byte → Byte)
    (hread : ∀ k : Fin 4, k.val = dst.toNat ∨ k.val = src.toNat → s.reg k = u.reg k) (hr : r.val = dst.toNat) :
    (s.combine f dst src).reg r = (u.combine f dst src).reg r := by
  by_cases hsrc : src.toNat < 4
  · have hk : src.toNat = (⟨src.toNat, hsrc⟩ : Fin 4).val := rfl
    rw [combine_of_valid hr.symm hk, combine_of_valid hr.symm hk, reg_setReg, reg_setReg, hread r (.inl hr),
      hread ⟨src.toNat, hsrc⟩ (.inr rfl)]
  · have hinvalid : 4 ≤ dst.toNat ∨ 4 ≤ src.toNat := .inr (Nat.not_lt.1 hsrc)
    rw [combine_of_invalid hinvalid, combine_of_invalid hinvalid, hread r (.inl hr)]

/-- What an instruction writes depends on the registers it reads alone (rule R11). -/
theorem reg_exec_congr {u v : State} {r : Fin 4} (hread : ∀ k, readsReg k i → s.reg k = u.reg k)
    (hr : writesReg r i) (hs : exec i s = .next t) (hu : exec i u = .next v) : t.reg r = v.reg r := by
  cases i <;> cases hs <;> cases hu
  case ldi a v =>
    have hnamed : r.val = a.toNat := hr
    rw [reg_advance, reg_advance, reg_writeOperand, reg_writeOperand, if_pos hnamed, if_pos hnamed]
  case add => exact reg_combine_congr sumMod256 hread hr
  case sub => exact reg_combine_congr differenceMod256 hread hr
  case jmp => exact hr.elim
  case hlt => exact hr.elim
  case unrecognized => exact hr.elim

/-- With other registers the executor answers the same state but for registers (rule R11). -/
theorem exec_withRegs {u : State} {x' : Vector Byte 4} (h : exec i s = .next t)
    (hu : exec i { s with x := x' } = .next u) : u = { t with x := u.x } := by
  cases i <;> cases h <;> cases hu
  case ldi => rw [writeOperand_eq s, writeOperand_eq { s with x := x' }]; rfl
  case add => rw [combine_eq s, combine_eq { s with x := x' }]; rfl
  case sub => rw [combine_eq s, combine_eq { s with x := x' }]; rfl
  case jmp => rfl
  case hlt => rfl
  case unrecognized => rfl

end

end Sys2Proof.Machine
end

section
/-! PROOFS. Frames and register access, memory over a run, and `pc` after a cycle (rules R11, R14, R17, R21, R23). -/

namespace Sys2Proof.Machine

/-- Settles O17: the three are the three-byte instructions, and their first operand names the one register they
write. -/
theorem registerOperationFrame : Obligations.RegisterOperationFrame := by
  intro i first second s t hi h
  have hlen : (encode i).length = 3 := by rcases hi with rfl | rfl | rfl <;> rfl
  have hwrites : ∀ r, writesReg r i → r.val = first.toNat := by
    rcases hi with rfl | rfl | rfl <;> exact fun _ hr => hr
  have hregs : ∀ r : Fin 4, r.val ≠ first.toNat → t.reg r = s.reg r := fun r hr =>
    reg_exec_of_not_writesReg (mt (hwrites r) hr) h
  have hframe := exec_eq_of_length_three hlen h
  refine ⟨hregs, ?_, ?_, ?_, (exec_memory h).1, memRead_exec h⟩ <;> rw [hframe]

/-- Settles O18: none of the three writes a register, JMP writes `pc` alone and a stop the status fields alone. -/
theorem controlFrame : Obligations.ControlFrame := by
  intro i addr op s t hi h
  have hregs : ∀ r, t.reg r = s.reg r := fun r =>
    reg_exec_of_not_writesReg (by rcases hi with rfl | rfl | rfl <;> exact id) h
  refine ⟨hregs, (exec_memory h).1, memRead_exec h, ?_, ?_⟩
  · rintro rfl
    cases h
    exact ⟨rfl, rfl, rfl⟩
  · rintro (rfl | rfl) <;> cases h <;> rfl

/-- Settles O19: both runs have an answer; they differ in registers only, agree where the instruction writes and keep
their own value where it does not. -/
theorem onlyNamedRegistersAreReadOrWritten : Obligations.OnlyNamedRegistersAreReadOrWritten := by
  intro i s x' hread
  obtain ⟨t, ht⟩ := exec_total i s
  obtain ⟨u, hu⟩ := exec_total i { s with x := x' }
  have hwritten : ∀ r, writesReg r i → t.reg r = u.reg r := fun r hr =>
    reg_exec_congr (fun k hk => (hread k hk).symm) hr ht hu
  have hkept : ∀ r, ¬ writesReg r i → t.reg r = s.reg r ∧ u.reg r = x'[r] := fun r hr =>
    ⟨reg_exec_of_not_writesReg hr ht, reg_exec_of_not_writesReg hr hu⟩
  exact ⟨t, u, ht, hu, exec_withRegs ht hu, hwritten, hkept⟩

/-- No cycle changes memory or its size: an out-of-range stop does not, and the executor does not (rule R23). -/
theorem step_memory {s t : State} (h : step s = .next t) : t.memSize = s.memSize ∧ t.mem = s.mem := by
  obtain ⟨-, ⟨a, -, rfl⟩ | ⟨i, -, hexec⟩⟩ := step_eq_next h
  · exact ⟨stop_memSize .., stop_mem ..⟩
  · exact exec_memory hexec

/-- No number of cycles changes memory or its size (rule R23). -/
theorem runCycles_memory {n : Nat} {s t : State} (h : runCycles n s = .next t) :
    t.memSize = s.memSize ∧ t.mem = s.mem :=
  runCycles_keeps (P := fun u => u.memSize = s.memSize ∧ u.mem = s.mem)
    (fun _ _ hu hstep => ⟨(step_memory hstep).1.trans hu.1, (step_memory hstep).2.trans hu.2⟩) ⟨rfl, rfl⟩ h

/-- Settles O20: the executor neither writes memory nor reads it, and each cycle of a run keeps it. -/
theorem memoryIsConstantOverARun : Obligations.MemoryIsConstantOverARun := by
  refine ⟨fun i s m => ?_, fun n s t h => ?_⟩
  · obtain ⟨t, ht⟩ := exec_total i s
    exact ⟨t, ht, (exec_memory ht).2, exec_withMem ht m⟩
  · obtain ⟨hsize, hmem⟩ := runCycles_memory h
    exact ⟨hmem, memRead_congr hsize hmem⟩

/-- Settles O28: the cycle is the executor on the decoded instruction, or a stop, which leaves `pc` alone. -/
theorem pcAfterACycle : Obligations.PcAfterACycle := by
  refine fun s hr => ⟨fun i hd => ?_, fun a hd => ⟨_, step_outOfRange hr hd, stop_pc ..⟩⟩
  obtain ⟨t, ht⟩ := exec_total i s
  refine ⟨t, (step_instr hr hd).trans ht, ?_⟩
  have hadvance (hlen : (encode i).length = 3) : t.pc = s.pc + 3 := by rw [exec_eq_of_length_three hlen ht]
  cases i with
  | ldi => exact hadvance rfl
  | add => exact hadvance rfl
  | sub => exact hadvance rfl
  | jmp => cases ht; rfl
  | hlt => cases ht; rfl
  | unrecognized => cases ht; rfl

end Sys2Proof.Machine
end

section
/-! PROOFS. The opcode map (rules R50 to R53, R58): each row's instruction is what its own encoding decodes to, whatever
bytes follow, so the map and the sample words are both read off the encoder. -/

namespace Sys2Proof.Machine

/-- An instruction is decoded from its encoding, whatever bytes follow: a row's bytes are the ones its decoder reads. -/
theorem decodeBytes_encode_append (i : Instr) (hwf : i.wf = true) (rest : List Byte) :
    decodeBytes (encode i ++ rest) = .instr i := by
  cases i with
  | ldi => exact decodeFrom_ldi rfl rfl rfl
  | add => exact decodeFrom_add rfl rfl rfl
  | jmp => exact decodeFrom_jmp rfl rfl
  | sub => exact decodeFrom_sub rfl rfl rfl
  | hlt => exact decodeFrom_hlt rfl
  | unrecognized => exact decodeFrom_unrecognized rfl (wf_unrecognized.mp hwf)

/-- Settles O24: on each row the three bytes begin with the encoding of the row's instruction. -/
theorem opcodeMap : Obligations.OpcodeMap := by
  intro op a b rest
  rcases classify_cases op with ⟨rfl, -⟩ | ⟨rfl, -⟩ | ⟨rfl, -⟩ | ⟨rfl, -⟩ | ⟨rfl, -⟩ | ⟨hop, -⟩
  · exact ⟨_, decodeBytes_encode_append (.ldi a b) rfl rest, rfl, rfl⟩
  · exact ⟨_, decodeBytes_encode_append (.add a b) rfl rest, rfl, rfl⟩
  · exact ⟨_, decodeBytes_encode_append (.jmp a) rfl (b :: rest), rfl, rfl⟩
  · exact ⟨_, decodeBytes_encode_append (.sub a b) rfl rest, rfl, rfl⟩
  · exact ⟨_, decodeBytes_encode_append .hlt rfl (a :: b :: rest), rfl, rfl⟩
  · have hwf : (Instr.unrecognized op).wf = true := wf_unrecognized.mpr hop
    refine ⟨_, decodeBytes_encode_append (.unrecognized op) hwf (a :: b :: rest), ?_⟩
    simp_all [Instr.knownOpcodes, encode]

/-- A word numbered as the opcode table numbers its bits decodes to the instruction whose encoding its bytes begin
with. -/
theorem decodeTableWord_of_tableBytes {nbits w : Nat} {i : Instr} {rest : List Byte} (hwf : i.wf = true)
    (hbytes : tableBytes nbits w = encode i ++ rest) : decodeTableWord nbits w = some i := by
  rw [decodeTableWord, hbytes, decodeBytes_encode_append i hwf]

/-- Settles O25: each word's bytes are its instruction's encoding, filled up to three bytes with zeros. -/
theorem sampleWordsDecode : Obligations.SampleWordsDecode :=
  ⟨decodeTableWord_of_tableBytes (rest := []) rfl rfl,
    decodeTableWord_of_tableBytes (rest := []) rfl rfl,
    decodeTableWord_of_tableBytes (rest := [0#8]) rfl rfl,
    decodeTableWord_of_tableBytes (rest := []) rfl rfl,
    decodeTableWord_of_tableBytes (rest := [0#8, 0#8]) rfl rfl,
    decodeTableWord_of_tableBytes (rest := [0#8, 0#8]) rfl rfl⟩

end Sys2Proof.Machine
end

section
/-! PROOFS. The cycle (40_cycle.md): it is the executor on the decoded instruction, and it is the pseudocode of rule
R78. The executor's register operations are put in the pseudocode's own form, a test of the operand bytes; then each
answer of the decoder names the pseudocode's row. -/

namespace Sys2Proof.Machine

/-! ## The decoded instruction is the one whose encoding stands at `pc` -/

/-- Where a well-formed instruction's encoding stands, the decoder answers that instruction, whatever follows. -/
theorem decodeFrom_of_encode {read : Nat → Option Byte} {pc : Nat} {i : Instr} (hwf : i.wf = true)
    (hread : ∀ k, (h : k < (encode i).length) → read (pc + k) = some (encode i)[k]) :
    decodeFrom read pc = .instr i := by
  have hfirst : 0 < (encode i).length := by cases i <;> exact Nat.succ_pos _
  have h0 := hread 0 hfirst
  cases i with
  | ldi => exact decodeFrom_ldi h0 (hread 1 (by simp [encode])) (hread 2 (by simp [encode]))
  | add => exact decodeFrom_add h0 (hread 1 (by simp [encode])) (hread 2 (by simp [encode]))
  | jmp => exact decodeFrom_jmp h0 (hread 1 (by simp [encode]))
  | sub => exact decodeFrom_sub h0 (hread 1 (by simp [encode])) (hread 2 (by simp [encode]))
  | hlt => exact decodeFrom_hlt h0
  | unrecognized => exact decodeFrom_unrecognized h0 (wf_unrecognized.mp hwf)

/-- Settles O26: the step of a RUNNING machine is the executor on what decodes at `pc`, and an encoding decodes to its
instruction. -/
theorem stepRunsTheDecodedInstruction : Obligations.StepRunsTheDecodedInstruction :=
  fun _ _ hr => ⟨step_instr hr, fun hwf hread => step_instr hr (decodeFrom_of_encode hwf hread)⟩

/-! ## The opcodes with operand bytes -/

/-- The opcodes whose instruction is longer than one byte (rules R50, R58). -/
theorem opcode_of_length_ne_one {op : Byte} (h : (classify op).length ≠ 1) :
    op = 0x01#8 ∨ op = 0x02#8 ∨ op = 0x03#8 ∨ op = 0x04#8 := by
  revert op
  decide

/-- The opcodes whose instruction has three bytes (rules R50, R58). -/
theorem opcode_of_length_eq_three {op : Byte} (h : (classify op).length = 3) :
    op = 0x01#8 ∨ op = 0x02#8 ∨ op = 0x04#8 := by
  revert op
  decide

/-! ## The register operations as the pseudocode writes them -/

theorem sumMod256_eq_ofNat (a b : Byte) : sumMod256 a b = BitVec.ofNat 8 ((a.toNat + b.toNat) % 256) :=
  BitVec.eq_of_toNat_eq (by simp [sumMod256_toNat])

theorem differenceMod256_eq_ofInt (a b : Byte) :
    differenceMod256 a b = BitVec.ofInt 8 (((a.toNat : Int) - b.toNat) % 256) := by
  rw [← differenceMod256_toNat, BitVec.ofInt_natCast, BitVec.ofNat_toNat, BitVec.setWidth_eq]

section
variable (s : State) (a b : Byte) (n : Nat)

/-- Writing one register by its operand byte: a test of the byte, and no write where it names none (rule R88). -/
theorem advance_writeOperand_eq : (s.writeOperand a b).advance n =
    if h : a.toNat < 4 then { s with x := s.x.set a.toNat b h, pc := s.pc + n } else { s with pc := s.pc + n } := by
  split
  · next h =>
    rw [State.writeOperand, regIndex_of_lt h]
    rfl
  · next h =>
    rw [writeOperand_of_ge (Nat.not_lt.mp h)]
    rfl

/-- Combining two registers by their operand bytes: one test of both bytes, and no write where either names none
(rule R88). -/
theorem advance_combine_eq (f : Byte → Byte → Byte) : (s.combine f a b).advance n =
    if h : a.toNat < 4 ∧ b.toNat < 4 then
      { s with x := s.x.set a.toNat (f (s.x[a.toNat]'h.1) (s.x[b.toNat]'h.2)) h.1, pc := s.pc + n }
    else { s with pc := s.pc + n } := by
  split
  · next h =>
    rw [combine_of_valid (d := ⟨_, h.1⟩) (r := ⟨_, h.2⟩) rfl rfl]
    rfl
  · next h =>
    rw [combine_of_invalid (by omega)]
    rfl

end

/-! ## The control arms -/

theorem exec_jmp (a : Byte) (s : State) : exec (.jmp a) s = .next { s with pc := a.toNat } := rfl
theorem exec_hlt (s : State) : exec .hlt s = .next (s.stop .halt s.pc) := rfl
theorem exec_unrecognized (op : Byte) (s : State) :
    exec (.unrecognized op) s = .next (s.stop .unrecognized s.pc) := rfl

/-! ## The pseudocode's rows -/

/-- The pseudocode's `raise` is the model's stop (rules R8, R108). -/
theorem raised_eq_stop (s : State) (reason : StopReason) (addr : Nat) : s.raised reason addr = s.stop reason addr := rfl

section
variable {s : State}

/-- Where the decoder is refused a read, the pseudocode raises OUT_OF_RANGE at the same address. -/
theorem pseudocodeCycle_of_outOfRange {addr : Nat} (hd : s.decoded = .outOfRange addr) :
    s.pseudocodeCycle = s.stop .outOfRange addr := by
  rcases decodeFrom_eq_outOfRange hd with ⟨rfl, h0⟩ | ⟨op, h0, hlen, rfl, h1⟩ | ⟨op, a, h0, hlen, h1, rfl, h2⟩
  · simp [State.pseudocodeCycle, h0, raised_eq_stop]
  · rcases opcode_of_length_ne_one hlen with rfl | rfl | rfl | rfl <;>
      simp [State.pseudocodeCycle, h0, h1, raised_eq_stop]
  · rcases opcode_of_length_eq_three hlen with rfl | rfl | rfl <;>
      simp [State.pseudocodeCycle, h0, h1, h2, raised_eq_stop]

/-- Where an instruction is decoded, the pseudocode's row for its opcode is the executor's arm for it. -/
theorem exec_eq_pseudocodeCycle {i : Instr} (hd : s.decoded = .instr i) : exec i s = .next s.pseudocodeCycle := by
  rcases decodeFrom_eq_instr hd with ⟨a, b, rfl, h0, h1, h2⟩ | ⟨a, b, rfl, h0, h1, h2⟩ | ⟨a, rfl, h0, h1⟩ |
    ⟨a, b, rfl, h0, h1, h2⟩ | ⟨rfl, h0⟩ | ⟨op, rfl, h0, hop⟩
  · simp [exec_ldi, advance_writeOperand_eq, State.pseudocodeCycle, h0, h1, h2]
  · simp [exec_add, advance_combine_eq, sumMod256_eq_ofNat, State.pseudocodeCycle, h0, h1, h2]
  · simp [exec_jmp, State.pseudocodeCycle, h0, h1]
  · simp [exec_sub, advance_combine_eq, differenceMod256_eq_ofInt, State.pseudocodeCycle, h0, h1, h2]
  · simp [exec_hlt, State.pseudocodeCycle, h0, raised_eq_stop]
  · simp only [Instr.knownOpcodes, List.mem_cons, List.not_mem_nil, or_false, not_or] at hop
    simp [exec_unrecognized, State.pseudocodeCycle, h0, hop, raised_eq_stop]

end

/-- Settles O27: the decoder either answers an instruction, which the executor runs as the pseudocode's row does, or is
refused a read, where both stop alike. -/
theorem cycleIsThePseudocode : Obligations.CycleIsThePseudocode := by
  intro s hr
  cases hd : s.decoded with
  | instr i => exact (step_instr hr hd).trans (exec_eq_pseudocodeCycle hd)
  | outOfRange addr => rw [step_outOfRange hr hd, pseudocodeCycle_of_outOfRange hd]

end Sys2Proof.Machine
end

section
/-! PROOFS. The register operations (41_register_ops.md): what LDI, ADD and SUB answer, that an invalid index leaves
`pc` alone to change, and how their cycle ends where an operand byte does not exist (rules R85 to R89). ADD and SUB are
one operation, `State.combine`, with two arithmetics, so its facts are stated for any function of two bytes. -/

namespace Sys2Proof.Machine

/-! ## The out-of-range stop of a three-byte instruction -/

/-- LDI, ADD and SUB have three bytes, the converse of `opcode_of_length_eq_three` (rules R50, R58). -/
theorem classify_length_of_mem {op : Byte} (h : op ∈ [0x01#8, 0x02#8, 0x04#8]) : (classify op).length = 3 := by
  revert op
  decide

/-- A three-byte instruction in the last two cells stops at `MEM_SIZE`, the lowest operand address that does not exist;
the operand byte that does exist has no say in it (rules R74, R88, R103). -/
theorem step_threeByte_at_the_end {s : State} {op : Byte} (hr : s.runState = .running)
    (h0 : s.memRead s.pc = some op) (hop : op ∈ [0x01#8, 0x02#8, 0x04#8])
    (hend : s.pc + 1 = s.memSize ∨ s.pc + 2 = s.memSize) :
    step s = .next (s.stop .outOfRange s.memSize) := by
  have hlen := classify_length_of_mem hop
  rcases hend with hend | hend <;> rw [← hend]
  · have hfirst : s.memRead (s.pc + 1) = none := memRead_eq_none.mpr hend.ge
    exact step_outOfRange hr (decodeFrom_firstOperand_none h0 (by omega) hfirst)
  · have hfirst := memRead_of_lt (s := s) (a := s.pc + 1) (by omega)
    have hsecond : s.memRead (s.pc + 2) = none := memRead_eq_none.mpr hend.ge
    exact step_outOfRange hr (decodeFrom_secondOperand_none h0 hlen hfirst hsecond)

/-! ## The executor, with valid and with invalid operand bytes -/

section
variable {i : Instr} {s t : State} {f : Byte → Byte → Byte} {dst src : Byte}

/-- The frame of a register operation, with what it does to `pc` (rules R14, R85 to R87). -/
theorem exec_frame_of_length_three (hlen : (encode i).length = 3) (h : exec i s = .next t) :
    t.pc = s.pc + 3 ∧ t = { s with x := t.x, pc := t.pc } := by
  have hframe := exec_eq_of_length_three hlen h
  have hpc : t.pc = s.pc + 3 := by rw [hframe]
  exact ⟨hpc, by rwa [hpc]⟩

/-- The destination of `combine` takes the result of the two old values (rules R86, R87, R128). -/
theorem reg_combine_dst {d r : Fin 4} (hd : dst.toNat = d.val) (hr : src.toNat = r.val) :
    (s.combine f dst src).reg d = f (s.reg d) (s.reg r) := by
  rw [combine_of_valid hd hr, reg_setReg, if_pos rfl]

/-- What an instruction that combines two registers answers, in ADD's and SUB's own form (rules R86, R87). -/
theorem exec_combine_of_valid {d r : Fin 4} (hlen : (encode i).length = 3)
    (hexec : exec i s = .next ((s.combine f dst src).advance 3)) (hd : dst.toNat = d.val) (hr : src.toNat = r.val) :
    ∃ t, exec i s = .next t ∧ t.reg d = f (s.reg d) (s.reg r) ∧ (∀ k, k ≠ d → t.reg k = s.reg k) ∧
      t.pc = s.pc + 3 ∧ t = { s with x := t.x, pc := t.pc } := by
  have hother : ∀ k, k ≠ d → (s.combine f dst src).reg k = s.reg k := fun k hk =>
    reg_combine_of_ne s f (by rwa [hd, Ne, Fin.val_inj])
  exact ⟨_, hexec, reg_combine_dst hd hr, hother, exec_frame_of_length_three hlen hexec⟩

theorem exec_ldi_of_invalid {reg imm : Byte} (h : 4 ≤ reg.toNat) :
    exec (.ldi reg imm) s = .next { s with pc := s.pc + 3 } := by
  rw [exec_ldi, writeOperand_of_ge h]
  rfl

theorem exec_add_of_invalid (h : 4 ≤ dst.toNat ∨ 4 ≤ src.toNat) :
    exec (.add dst src) s = .next { s with pc := s.pc + 3 } := by
  rw [exec_add, combine_of_invalid h]
  rfl

theorem exec_sub_of_invalid (h : 4 ≤ dst.toNat ∨ 4 ≤ src.toNat) :
    exec (.sub dst src) s = .next { s with pc := s.pc + 3 } := by
  rw [exec_sub, combine_of_invalid h]
  rfl

end

/-! ## The obligations -/

/-- Settles O8: the executor writes through the operand byte; the cycle decodes the three bytes, or lacks one. -/
theorem ldiLoadsTheImmediate : Obligations.LdiLoadsTheImmediate := by
  refine fun s reg imm => ⟨?_, fun hr h0 => ⟨fun h1 h2 => ?_, step_threeByte_at_the_end hr h0 (by decide)⟩⟩
  · have hexec := exec_ldi s reg imm
    exact ⟨_, hexec, reg_writeOperand s reg imm, exec_frame_of_length_three rfl hexec⟩
  · exact step_instr hr (decodeFrom_ldi h0 h1 h2)

/-- Settles O9: ADD combines its registers by the sum modulo 256. -/
theorem addSumsTheRegisters : Obligations.AddSumsTheRegisters := by
  refine fun s dst src => ⟨fun d r hd hr => ?_, exec_add_of_invalid,
    fun hrun h0 => ⟨fun h1 h2 => ?_, step_threeByte_at_the_end hrun h0 (by decide)⟩⟩
  · obtain ⟨t, ht, hdst, hrest⟩ := exec_combine_of_valid rfl (exec_add s dst src) hd hr
    exact ⟨t, ht, by rw [hdst, sumMod256_toNat], hrest⟩
  · exact step_instr hrun (decodeFrom_add h0 h1 h2)

/-- Settles O10: SUB combines its registers by the difference modulo 256, the destination first. -/
theorem subSubtractsTheSource : Obligations.SubSubtractsTheSource := by
  refine fun s dst src => ⟨fun d r hd hr => ?_, exec_sub_of_invalid,
    fun hrun h0 => ⟨fun h1 h2 => ?_, step_threeByte_at_the_end hrun h0 (by decide)⟩⟩
  · obtain ⟨t, ht, hdst, hrest⟩ := exec_combine_of_valid rfl (exec_sub s dst src) hd hr
    exact ⟨t, ht, by rw [hdst, differenceMod256_toNat], hrest⟩
  · exact step_instr hrun (decodeFrom_sub h0 h1 h2)

/-- Settles O11: the executor drops the write, and the decoder, which never looks at an index, comes before it. -/
theorem invalidIndexIsSilentNoOp : Obligations.InvalidIndexIsSilentNoOp := by
  refine ⟨fun _ _ _ => exec_ldi_of_invalid, fun _ _ _ h => ⟨exec_add_of_invalid h, exec_sub_of_invalid h⟩, ?_⟩
  intro s op index hr h0 hop _ _ hend
  exact step_threeByte_at_the_end hr h0 hop (.inr hend)

/-- Settles O12: ADD's sum is below 512 and SUB's difference above -256, so each remainder is off by 256 at most
once. -/
theorem arithmeticWrapsAt256 : Obligations.ArithmeticWrapsAt256 := by
  intro s dst src d r hd hr
  obtain ⟨t, ht, hsum, -, -, htframe⟩ := (addSumsTheRegisters s dst src).1 d r hd hr
  obtain ⟨u, hu, hdiff, -, -, huframe⟩ := (subSubtractsTheSource s dst src).1 d r hd hr
  have ha : (s.reg d).toNat < 256 := (s.reg d).isLt
  have hb : (s.reg r).toNat < 256 := (s.reg r).isLt
  refine ⟨t, u, ht, hu, ?_, ?_, htframe, huframe⟩ <;> split <;> omega

end Sys2Proof.Machine
end

section
/-! PROOFS. Control transfer and the two stops of the executor (42_control.md): what JMP, HLT and the default row
answer, how their cycle runs from its bytes, and where the missing byte, or the missing target, stops it (rules R90 to
R92, R101, R102). -/

namespace Sys2Proof.Machine

section
variable {s : State}

/-- A `pc` outside memory stops the machine at `pc` before anything is read (rules R72, R103): the check a jump's
target meets. -/
theorem step_of_memSize_le_pc (hr : s.runState = .running) (hpc : s.memSize ≤ s.pc) :
    step s = .next (s.stop .outOfRange s.pc) :=
  step_outOfRange hr (decodeFrom_none (memRead_eq_none.mpr hpc))

/-- In the last cell the first operand byte does not exist, so an instruction that has one stops at `MEM_SIZE`
(rules R74, R75, R103). -/
theorem step_operand_at_the_end {op : Byte} (hr : s.runState = .running) (h0 : s.memRead s.pc = some op)
    (hlen : (classify op).length ≠ 1) (hend : s.pc + 1 = s.memSize) :
    step s = .next (s.stop .outOfRange s.memSize) := by
  rw [← hend]
  have hfirst : s.memRead (s.pc + 1) = none := memRead_eq_none.mpr hend.ge
  exact step_outOfRange hr (decodeFrom_firstOperand_none h0 hlen hfirst)

end

/-- Settles O14: JMP looks at its operand byte alone, so the target's bound is left to the next opcode fetch. -/
theorem jmpSetsPc : Obligations.JmpSetsPc := by
  refine fun s addr => ⟨exec_jmp addr s, fun hr h0 => ⟨fun h1 => ⟨?_, fun htarget => ?_⟩, fun hend => ?_⟩⟩
  · exact step_instr hr (decodeFrom_jmp h0 h1)
  · exact step_of_memSize_le_pc hr htarget
  · exact step_operand_at_the_end hr h0 (by decide) hend

/-- Settles O15: HLT decodes from its opcode byte alone, so no cell is too late for it. -/
theorem hltStops : Obligations.HltStops :=
  fun s => ⟨exec_hlt s, fun hr h0 => step_instr hr (decodeFrom_hlt h0)⟩

/-- Settles O16: the default row decodes from the one byte, which the stop does not record. -/
theorem unrecognizedStops : Obligations.UnrecognizedStops :=
  fun s op => ⟨exec_unrecognized op s, fun hop hr h0 => step_instr hr (decodeFrom_unrecognized h0 hop)⟩

end Sys2Proof.Machine
end

section
/-! PROOFS. The stops (60_exceptions.md): what a cycle answers at each check of rule R106, told by `pc` and the opcode
byte; then the converse, that a STOPPED answer came from one of the three stops, and from which bytes (rules R100, R103,
R106, R108). -/

namespace Sys2Proof.Machine

section
variable {s t : State} {op : Byte}

/-! ## Each check of the cycle, and what follows when it does or does not fire -/

/-- LDI, ADD, JMP and SUB have operand bytes, the converse of `opcode_of_length_ne_one` (rules R50, R58). -/
theorem classify_length_ne_one_of_mem (h : op ∈ [0x01#8, 0x02#8, 0x03#8, 0x04#8]) : (classify op).length ≠ 1 := by
  revert op
  decide

theorem step_hlt (hr : s.runState = .running) (h0 : s.memRead s.pc = some 0xFF#8) :
    step s = .next (s.stop .halt s.pc) :=
  (hltStops s).2 hr h0

theorem step_unrecognized (hr : s.runState = .running) (h0 : s.memRead s.pc = some op)
    (hop : op ∉ Instr.knownOpcodes) : step s = .next (s.stop .unrecognized s.pc) :=
  (unrecognizedStops s op).2 hop hr h0

/-- JMP completes where its one operand byte exists (rules R75, R90). -/
theorem step_jmp_completes (hr : s.runState = .running) (h0 : s.memRead s.pc = some 0x03#8)
    (hroom : s.pc + 1 < s.memSize) :
    ∃ addr, s.memRead (s.pc + 1) = some addr ∧ step s = .next { s with pc := addr.toNat } := by
  have hoperand := memRead_of_lt hroom
  exact ⟨_, hoperand, step_instr hr (decodeFrom_jmp h0 hoperand)⟩

/-- Where its three bytes exist, the opcode of LDI, ADD or SUB decodes to a three-byte instruction (rules R73, R74). -/
theorem decoded_threeByte (h0 : s.memRead s.pc = some op) (hop : op ∈ [0x01#8, 0x02#8, 0x04#8])
    (hroom : s.pc + 2 < s.memSize) : ∃ i, s.decoded = .instr i ∧ (encode i).length = 3 := by
  have hfirst := memRead_of_lt (s := s) (a := s.pc + 1) (by omega)
  have hsecond := memRead_of_lt hroom
  rcases opcode_of_length_eq_three (classify_length_of_mem hop) with rfl | rfl | rfl
  · exact ⟨_, decodeFrom_ldi h0 hfirst hsecond, rfl⟩
  · exact ⟨_, decodeFrom_add h0 hfirst hsecond, rfl⟩
  · exact ⟨_, decodeFrom_sub h0 hfirst hsecond, rfl⟩

/-- LDI, ADD and SUB complete where their three bytes exist, and the machine runs on. -/
theorem step_threeByte_completes (hr : s.runState = .running) (h0 : s.memRead s.pc = some op)
    (hop : op ∈ [0x01#8, 0x02#8, 0x04#8]) (hroom : s.pc + 2 < s.memSize) :
    ∃ t, step s = .next t ∧ t.runState = .running := by
  obtain ⟨i, hd, hlen⟩ := decoded_threeByte h0 hop hroom
  obtain ⟨t, ht⟩ := exec_total i s
  refine ⟨t, (step_instr hr hd).trans ht, ?_⟩
  rw [exec_eq_of_length_three hlen ht]
  exact hr

/-- A RUNNING machine always answers a next state: the one the pseudocode writes (rule R78). -/
theorem step_total (hr : s.runState = .running) : ∃ t, step s = .next t :=
  ⟨_, cycleIsThePseudocode s hr⟩

/-! ## The converse: how a cycle came to stop -/

/-- Inversion of a stop: the decoder was refused a read, or the executor met HLT or the default row; each wrote the
three status fields alone (rules R100, R108). -/
theorem step_eq_stopped (h : step s = .next t) (ht : t.runState = .stopped) :
    (∃ a, s.decoded = .outOfRange a ∧ t = s.stop .outOfRange a) ∨
    (s.decoded = .instr .hlt ∧ t = s.stop .halt s.pc) ∨
    (∃ op, s.decoded = .instr (.unrecognized op) ∧ t = s.stop .unrecognized s.pc) := by
  obtain ⟨hr, hrefused | ⟨i, hd, hexec⟩⟩ := step_eq_next h
  · exact .inl hrefused
  · rcases exec_cases i s with ⟨u, hu, hframe, -⟩ | ⟨rfl, hu⟩ | ⟨op, rfl, hu⟩ <;>
      obtain rfl := Host.Outcome.next.inj (hexec.symm.trans hu)
    · have hrunning : t.runState = s.runState := by rw [hframe]
      simp [hrunning, hr] at ht
    · exact .inr (.inl ⟨hd, rfl⟩)
    · exact .inr (.inr ⟨op, hd, rfl⟩)

theorem memRead_of_decoded_hlt (h : s.decoded = .instr .hlt) : s.memRead s.pc = some 0xFF#8 := by
  simpa using decodeFrom_eq_instr h

theorem memRead_of_decoded_unrecognized (h : s.decoded = .instr (.unrecognized op)) :
    s.memRead s.pc = some op ∧ op ∉ Instr.knownOpcodes := by
  simpa using decodeFrom_eq_instr h

/-- The decoder's rejection at `pc`, told by the opcode byte: `decoded_eq_outOfRange` with rule R100's table. -/
theorem opcode_of_decoded_outOfRange {a : Nat} (h : s.decoded = .outOfRange a) :
    (s.memSize ≤ s.pc ∧ a = s.pc) ∨
    ((∃ op, s.memRead s.pc = some op ∧ op ∈ [0x01#8, 0x02#8, 0x04#8]) ∧ s.memSize ≤ s.pc + 2 ∧ a = s.memSize) ∨
    (s.memRead s.pc = some 0x03#8 ∧ s.memSize ≤ s.pc + 1 ∧ a = s.memSize) := by
  rcases decodeFrom_eq_outOfRange h with ⟨rfl, h0⟩ | ⟨op, h0, hlen, rfl, h1⟩ | ⟨op, b, h0, hlen, h1, rfl, h2⟩
  · exact .inl ⟨memRead_eq_none.mp h0, rfl⟩
  · have hpc := lt_of_memRead h0
    have hend := memRead_eq_none.mp h1
    by_cases hjmp : op = 0x03#8
    · exact .inr (.inr ⟨hjmp ▸ h0, hend, by omega⟩)
    · have hop : op ∈ [0x01#8, 0x02#8, 0x04#8] := by
        simpa [hjmp] using opcode_of_length_ne_one hlen
      exact .inr (.inl ⟨⟨op, h0, hop⟩, by omega, by omega⟩)
  · have hpc := lt_of_memRead h1
    have hend := memRead_eq_none.mp h2
    have hop : op ∈ [0x01#8, 0x02#8, 0x04#8] := by
      simpa using opcode_of_length_eq_three hlen
    exact .inr (.inl ⟨⟨op, h0, hop⟩, hend, by omega⟩)

end

/-! ## The obligations -/

/-- Settles O40: each of the three stops is `State.stop`, which writes those fields. -/
theorem stopsArePrecise : Obligations.StopsArePrecise := by
  intro s t _ h ht
  rcases step_eq_stopped h ht with ⟨a, -, rfl⟩ | ⟨-, rfl⟩ | ⟨op, -, rfl⟩ <;> rfl

/-- Settles O39: each check reads one byte further than the last, so the guard of each names the first read that
fails. -/
theorem checksAreMadeInOrder : Obligations.ChecksAreMadeInOrder := by
  refine fun s hr => ⟨step_of_memSize_le_pc hr, fun op h0 => ⟨?_, step_unrecognized hr h0, ?_, ?_,
    step_threeByte_completes hr h0, ?_⟩⟩
  · rintro rfl
    exact step_hlt hr h0
  · intro hop hend
    have hlast : s.pc + 1 = s.memSize := le_antisymm (lt_of_memRead h0) hend
    rw [hlast]
    exact step_operand_at_the_end hr h0 (classify_length_ne_one_of_mem hop) hlast
  · intro hop hfirst hend
    have hlast : s.pc + 2 = s.memSize := le_antisymm hfirst hend
    rw [hlast]
    exact step_threeByte_at_the_end hr h0 hop (.inr hlast)
  · rintro rfl hroom
    obtain ⟨addr, -, hstep⟩ := step_jmp_completes hr h0 hroom
    exact ⟨_, hstep, hr⟩

/-- Settles O38: the first three rows are the checks met at `pc` and at the last two cells; with three cells from `pc`
on the decoder is refused nothing, so a stop is one of the executor's. -/
theorem outOfRangeCases : Obligations.OutOfRangeCases := by
  refine fun s hr => ⟨step_of_memSize_le_pc hr, fun hlast op h0 => ?_, fun hlast op h0 => ⟨fun hop => ?_, ?_⟩,
    fun hroom => ?_⟩
  · split_ifs with hop hhlt
    · exact step_operand_at_the_end hr h0 (classify_length_ne_one_of_mem hop) hlast
    · exact step_hlt hr (hhlt ▸ h0)
    · have hunknown : op ∉ Instr.knownOpcodes := by
        simpa [Instr.knownOpcodes, hhlt] using hop
      exact step_unrecognized hr h0 hunknown
  · exact step_threeByte_at_the_end hr h0 hop (.inr hlast)
  · rintro rfl
    exact step_jmp_completes hr h0 (by omega)
  · obtain ⟨t, h⟩ := step_total hr
    refine ⟨t, h, fun ht => ⟨?_, stopsArePrecise s t hr h ht⟩⟩
    rcases step_eq_stopped h ht with ⟨a, hd, -⟩ | ⟨-, rfl⟩ | ⟨op, -, rfl⟩
    · have hshort := decoded_eq_outOfRange hd
      omega
    · exact .inl rfl
    · exact .inr rfl

/-- Settles O37: a stop is one of the three by inversion, and its bytes are the decoder's; conversely each row is a
check at which the cycle answers a stop. -/
theorem onlyThreeConditionsStop : Obligations.OnlyThreeConditionsStop := by
  refine ⟨⟨rfl, rfl, rfl⟩, fun s t hr h => ⟨fun ht => ?_, fun hrow => ?_⟩⟩
  · rcases step_eq_stopped h ht with ⟨a, hd, rfl⟩ | ⟨hd, rfl⟩ | ⟨op, hd, rfl⟩
    · rcases opcode_of_decoded_outOfRange hd with ⟨hpc, rfl⟩ | ⟨hop, hend, rfl⟩ | ⟨hjmp, hend, rfl⟩
      · exact .inr (.inr (.inl ⟨hpc, rfl, rfl⟩))
      · exact .inr (.inr (.inr (.inl ⟨hop, hend, rfl, rfl⟩)))
      · exact .inr (.inr (.inr (.inr ⟨hjmp, hend, rfl, rfl⟩)))
    · exact .inl ⟨memRead_of_decoded_hlt hd, rfl, rfl⟩
    · exact .inr (.inl ⟨⟨op, memRead_of_decoded_unrecognized hd⟩, rfl, rfl⟩)
  · have hstopped {reason addr} (hstop : step s = .next (s.stop reason addr)) : t.runState = .stopped := by
      rw [Host.Outcome.next.inj (h.symm.trans hstop), stop_runState]
    rcases hrow with ⟨h0, -⟩ | ⟨⟨op, h0, hop⟩, -⟩ | ⟨hpc, -⟩ | ⟨⟨op, h0, hop⟩, hend, -⟩ | ⟨h0, hend, -⟩
    · exact hstopped (step_hlt hr h0)
    · exact hstopped (step_unrecognized hr h0 hop)
    · exact hstopped (step_of_memSize_le_pc hr hpc)
    · have hpc := lt_of_memRead h0
      exact hstopped (step_threeByte_at_the_end hr h0 hop (by omega))
    · exact hstopped (step_operand_at_the_end hr h0 (by decide) (le_antisymm (lt_of_memRead h0) hend))

end Sys2Proof.Machine
end

section
/-! PROOFS. One register as source and destination: both reads see its old value, so the operation is applied to that
value twice (rule R128). -/

namespace Sys2Proof.Machine

/-- SUB's operation on equal values borrows nothing and leaves 0 (rules R89, R128). -/
theorem differenceMod256_self (a : Byte) : differenceMod256 a a = 0#8 :=
  BitVec.sub_self a

/-- Settles O13: each operation combines the register's old value with itself. -/
theorem sameRegisterTwice : Obligations.SameRegisterTwice := by
  intro s op d hd
  refine ⟨_, _, exec_add s op op, exec_sub s op op, ?_, ?_⟩
  · rw [reg_advance, reg_combine_dst hd hd, sumMod256_toNat, two_mul]
  · rw [reg_advance, reg_combine_dst hd hd, differenceMod256_self]

end Sys2Proof.Machine
end

section
/-! PROOFS. Decoding and encoding are each other's converse (rules R50 to R59, R72 to R76): an instruction is decoded at
`pc` exactly when it is well formed and its encoding is what is read from `pc` on. -/

namespace Sys2Proof.Machine

/-- What is decoded is well formed, and its encoding stood where it was decoded: the converse of
`decodeFrom_of_encode`. -/
theorem encode_of_decodeFrom {read : Nat → Option Byte} {pc : Nat} {i : Instr} (h : decodeFrom read pc = .instr i) :
    i.wf = true ∧ ∀ k, (hk : k < (encode i).length) → read (pc + k) = some (encode i)[k] := by
  rcases decodeFrom_eq_instr h with ⟨a, b, rfl, h0, h1, h2⟩ | ⟨a, b, rfl, h0, h1, h2⟩ | ⟨a, rfl, h0, h1⟩ |
    ⟨a, b, rfl, h0, h1, h2⟩ | ⟨rfl, h0⟩ | ⟨op, rfl, h0, hop⟩
  · exact ⟨rfl, fun | 0, _ => h0 | 1, _ => h1 | 2, _ => h2⟩
  · exact ⟨rfl, fun | 0, _ => h0 | 1, _ => h1 | 2, _ => h2⟩
  · exact ⟨rfl, fun | 0, _ => h0 | 1, _ => h1⟩
  · exact ⟨rfl, fun | 0, _ => h0 | 1, _ => h1 | 2, _ => h2⟩
  · exact ⟨rfl, fun | 0, _ => h0⟩
  · exact ⟨wf_unrecognized.mpr hop, fun | 0, _ => h0⟩

/-- Settles O21: on a list and through any way of reading, an encoding decodes to its instruction. -/
theorem decodeOfEncode : Obligations.DecodeOfEncode :=
  fun i hwf => ⟨decodeBytes_encode_append i hwf, fun _ _ => decodeFrom_of_encode hwf⟩

/-- Settles O22: the encoding is read from place 0 of the list on, so the list begins with it. -/
theorem encodeOfDecode : Obligations.EncodeOfDecode := by
  intro bytes i h
  obtain ⟨hwf, hread⟩ := encode_of_decodeFrom h
  refine ⟨hwf, List.prefix_iff_getElem?.mpr fun k hk => ?_⟩
  simpa using hread k hk

/-- Settles O23: the second way of reading finds the same encoding at `pc`. -/
theorem decodeReadsOnlyTheInstructionsBytes : Obligations.DecodeReadsOnlyTheInstructionsBytes := by
  intro read read' pc i h hagree
  obtain ⟨hwf, hread⟩ := encode_of_decodeFrom h
  exact decodeFrom_of_encode hwf fun k hk => (hagree k hk).trans (hread k hk)

end Sys2Proof.Machine
end

section
/-! PROOFS. A cycle that does not stop the machine: it changes registers and `pc` alone, by a jump or by falling through
a three-byte instruction that lies inside memory (rules R14, R38, R71, R131, R132). -/

namespace Sys2Proof.Machine

section
variable {s t : State}

/-- Inversion of a cycle that leaves the machine RUNNING, the counterpart of `step_eq_stopped`: registers and `pc` alone
changed, by a jump or by a three-byte instruction. -/
theorem step_eq_running (h : step s = .next t) (ht : t.runState = .running) :
    t = { s with x := t.x, pc := t.pc } ∧
      ((∃ addr : Byte, t.pc = addr.toNat) ∨ (s.pc + 2 < s.memSize ∧ t.pc = s.pc + 3)) := by
  obtain ⟨-, ⟨a, -, rfl⟩ | ⟨i, hd, hexec⟩⟩ := step_eq_next h
  · cases ht
  rcases exec_cases i s with ⟨u, hu, hframe, hpc⟩ | ⟨rfl, hu⟩ | ⟨op, rfl, hu⟩ <;>
    obtain rfl := Host.Outcome.next.inj (hexec.symm.trans hu)
  · refine ⟨hframe, ?_⟩
    rcases hpc with ⟨addr, -, -, haddr⟩ | ⟨hlen, hfall⟩
    · exact .inl ⟨addr, haddr⟩
    · have hlast : 2 < (encode i).length := by omega
      exact .inr ⟨lt_of_memRead ((encode_of_decodeFrom hd).2 2 hlast), hfall⟩
  · cases ht
  · cases ht

/-- LDI, ADD and SUB advance `pc` by 3 where their three bytes exist, and the machine runs on (rules R14, R131). -/
theorem step_threeByte_advances {op : Byte} (hr : s.runState = .running) (h0 : s.memRead s.pc = some op)
    (hop : op ∈ [0x01#8, 0x02#8, 0x04#8]) (hroom : s.pc + 2 < s.memSize) :
    ∃ t, step s = .next t ∧ t.runState = .running ∧ t.pc = s.pc + 3 := by
  obtain ⟨i, hd, hlen⟩ := decoded_threeByte h0 hop hroom
  obtain ⟨t, ht⟩ := exec_total i s
  obtain ⟨hpc, hframe⟩ := exec_frame_of_length_three hlen ht
  exact ⟨t, (step_instr hr hd).trans ht, by rw [hframe]; exact hr, hpc⟩

end

/-- Settles O30: the next state is the one the pseudocode writes. -/
theorem runningMachineAlwaysSteps : Obligations.RunningMachineAlwaysSteps :=
  fun _ => step_total

/-- Settles O29: a jump's target is one byte, below 256, so the machine fell through. -/
theorem highAddressesAreEnteredByFallingThrough : Obligations.HighAddressesAreEnteredByFallingThrough := by
  intro s t h ht hhigh
  obtain ⟨-, ⟨addr, haddr⟩ | ⟨-, hfall⟩⟩ := step_eq_running h ht
  · have := addr.isLt
    omega
  · exact hfall

/-- Settles O42: falling through the last three cells leaves `pc` at `MEM_SIZE`, where the opcode fetch is refused; a
zero byte is no opcode. -/
theorem runningOffTheEnd : Obligations.RunningOffTheEnd := by
  refine fun s op hr h0 => ⟨fun hop hend => ?_, ?_⟩
  · obtain ⟨t, hstep, ht, hpc⟩ := step_threeByte_advances hr h0 hop (by omega)
    have hsize : t.memSize = s.memSize := (step_memory hstep).1
    have hatEnd : t.pc = s.memSize := hpc.trans hend
    have hstop := step_of_memSize_le_pc ht (hsize.trans hatEnd.symm).le
    exact ⟨t, hstep, ht, hatEnd, hatEnd ▸ hstop⟩
  · rintro rfl
    exact step_unrecognized hr h0 (by decide)

/-- Settles O5: the empty image leaves the created machine, whose memory holds 0, no opcode, at `pc` 0. -/
theorem emptyImageStopsInItsFirstCycle : Obligations.EmptyImageStopsInItsFirstCycle := by
  intro memSize hpos
  have h0 : (State.created memSize).memRead 0 = some 0x00#8 := memRead_created_of_lt hpos
  exact ⟨_, init_nil hpos, created_pc _, fun i => reg_created i _,
    step_unrecognized (created_runState _) h0 (by decide)⟩

end Sys2Proof.Machine
end

section
/-! PROOFS. The invariant of the machine's states (10_state.md): it holds after `Init`, a cycle that leaves the machine
RUNNING keeps it, and so does a stop with a true report; `pc` and `stop_addr` fit `PC_BITS` by it. -/

namespace Sys2Proof.Machine

/-! ## The invariant where nothing is reported, and where a stop is -/

/-- A RUNNING machine with no stop recorded meets the invariant where its memory and its `pc` do. -/
theorem inv_of_running {s : State} (hpos : 1 ≤ s.memSize) (hmem : Memory.wf s.mem)
    (hrange : ∀ c ∈ s.mem, c.1 < s.memSize) (hpc : s.pc ≤ max s.memSize 255) (hr : s.runState = .running)
    (hreason : s.stopReason = .none) (haddr : s.stopAddr = 0) : s.Inv where
  memSize_pos := hpos
  mem_wf := hmem
  mem_inRange := hrange
  pc_le := hpc
  stopAddr_le := by omega
  reason_none_iff := iff_of_true hreason hr
  stopAddr_running := fun _ => haddr
  report := by simp only [State.stopReportTrue, hreason]

/-- A stop keeps the invariant where its report is true (rules R19, R20, R108). -/
theorem inv_stop {s : State} {reason : StopReason} {addr : Nat} (h : s.Inv) (hreason : reason ≠ .none)
    (haddr : addr ≤ max s.memSize 255) (hreport : (s.stop reason addr).stopReportTrue) :
    (s.stop reason addr).Inv where
  memSize_pos := h.memSize_pos
  mem_wf := h.mem_wf
  mem_inRange := h.mem_inRange
  pc_le := h.pc_le
  stopAddr_le := haddr
  reason_none_iff := iff_of_false hreason RunState.noConfusion
  stopAddr_running := nofun
  report := hreport

/-! ## The invariant holds at the start -/

/-- Settles O4: loading an image changes memory alone, and keeps it canonical and inside its bounds. -/
theorem initSatisfiesInvariant : Obligations.InitSatisfiesInvariant := by
  intro memSize image s h
  obtain ⟨⟨hpos, -⟩, hs⟩ := Option.ite_none_right_eq_some.mp h
  obtain rfl := Option.some.inj hs
  obtain ⟨hmem, hrange⟩ := placeBytes_keeps (s := State.created memSize) 0 image Memory.wf_nil (by simp)
  exact inv_of_running (by simpa) hmem (by simpa using hrange) (by simp) (by simp) (by simp) (by simp)

/-- Settles O3: the reset state is `Init` of the empty image. -/
theorem resetSatisfiesInvariant : Obligations.ResetSatisfiesInvariant :=
  initSatisfiesInvariant 1024 [] _ resetIsStockMachineWithEmptyImage.1

/-! ## Every cycle keeps it -/

/-- A cycle that leaves the machine RUNNING keeps the invariant: a jump's target is one byte, and falling through goes
no further than the end of memory (rule R16). -/
theorem inv_of_step_running {s t : State} (hs : s.Inv) (h : step s = .next t) (ht : t.runState = .running) : t.Inv := by
  obtain ⟨hr, -⟩ := step_eq_next h
  obtain ⟨hframe, htarget⟩ := step_eq_running h ht
  have hpc : t.pc ≤ max s.memSize 255 := by
    rcases htarget with ⟨addr, haddr⟩ | ⟨hroom, hfall⟩
    · have := addr.isLt
      omega
    · omega
  have hreason : s.stopReason = .none := hs.reason_none_iff.mpr hr
  have haddr : s.stopAddr = 0 := hs.stopAddr_running hr
  rw [hframe]
  exact inv_of_running hs.memSize_pos hs.mem_wf hs.mem_inRange hpc hr hreason haddr

/-- A cycle that stops the machine keeps the invariant: each of the three stops reports what was decoded. -/
theorem inv_of_step_stopped {s t : State} (hs : s.Inv) (h : step s = .next t) (ht : t.runState = .stopped) : t.Inv := by
  have hpc := hs.pc_le
  rcases step_eq_stopped h ht with ⟨a, hd, rfl⟩ | ⟨hd, rfl⟩ | ⟨op, hd, rfl⟩
  · have hrejected := decoded_eq_outOfRange hd
    exact inv_stop hs nofun (by omega) hd
  · exact inv_stop hs nofun hpc ⟨hd, rfl⟩
  · exact inv_stop hs nofun hpc ⟨⟨op, hd⟩, rfl⟩

/-- Settles O6: a cycle leaves the machine RUNNING or stops it. -/
theorem stepKeepsInvariant : Obligations.StepKeepsInvariant := by
  intro s t hs h
  cases ht : t.runState with
  | running => exact inv_of_step_running hs h ht
  | stopped => exact inv_of_step_stopped hs h ht

/-- No number of cycles leaves the invariant. -/
theorem inv_of_runCycles {n : Nat} {s t : State} (hs : s.Inv) (h : runCycles n s = .next t) : t.Inv :=
  runCycles_keeps stepKeepsInvariant hs h

/-! ## The width of `pc` -/

/-- `PC_BITS` bits hold every address up to `MEM_SIZE` and every jump target (rule R6). -/
theorem max_memSize_lt_two_pow_pcBits (memSize : Nat) : max memSize 255 < 2 ^ Config.pcBits memSize := by
  refine max_lt ?_ ?_
  · calc memSize < 2 ^ Config.bitlen memSize := Nat.lt_log2_self
      _ ≤ 2 ^ Config.pcBits memSize := Nat.pow_le_pow_right Nat.two_pos (le_max_right ..)
  · calc 255 < 2 ^ 8 := by decide
      _ ≤ 2 ^ Config.pcBits memSize := Nat.pow_le_pow_right Nat.two_pos (le_max_left ..)

/-- Settles O7: both are at most `max(MEM_SIZE, 255)`. -/
theorem pcAndStopAddrFitPcBits : Obligations.PcAndStopAddrFitPcBits :=
  fun _ h => ⟨h.pc_le.trans_lt (max_memSize_lt_two_pow_pcBits _),
    h.stopAddr_le.trans_lt (max_memSize_lt_two_pow_pcBits _)⟩

end Sys2Proof.Machine
end

section
/-! PROOFS. How a run ends (40_cycle.md section 4): the run loop ends in `t` exactly when cycles lead to `t` and `t` is
STOPPED, so that facts about cycles are facts about runs (rules R26, R27, R70, R71, R80 to R82). -/

namespace Sys2Proof.Machine

section
variable {n k : Nat} {s t : State}

/-- Fuel left over changes nothing: a run that has ended within the fuel stays ended (rule R82). -/
theorem runLoop_of_runCycles_le (h : runCycles k s = .next t) (ht : t.runState = .stopped) (hk : k ≤ n) :
    runLoop n s = some t := by
  induction k generalizing s n with
  | zero =>
    cases h
    exact runLoop_stopped ht n
  | succ k ih =>
    obtain ⟨u, hu, h⟩ := runCycles_succ_eq_next.mp h
    obtain ⟨m, rfl⟩ := Nat.exists_eq_add_of_le' (Nat.zero_lt_of_lt hk)
    rw [runLoop_succ_of_step hu, ih h (Nat.le_of_succ_le_succ hk)]

/-- A run that ends was led to a STOPPED state by cycles, no more of them than the fuel. -/
theorem runCycles_of_runLoop (h : runLoop n s = some t) :
    t.runState = .stopped ∧ ∃ k, k ≤ n ∧ runCycles k s = .next t := by
  induction n generalizing s with
  | zero =>
    cases hr : s.runState with
    | running => simp [runLoop_zero_running hr] at h
    | stopped =>
      obtain rfl := Option.some.inj ((runLoop_stopped hr 0).symm.trans h)
      exact ⟨hr, 0, le_rfl, rfl⟩
  | succ n ih =>
    cases hr : s.runState with
    | running =>
      obtain ⟨u, hu⟩ := step_total hr
      rw [runLoop_succ_of_step hu] at h
      obtain ⟨ht, k, hk, hcycles⟩ := ih h
      exact ⟨ht, k + 1, Nat.succ_le_succ hk, runCycles_succ_eq_next.mpr ⟨u, hu, hcycles⟩⟩
    | stopped =>
      obtain rfl := Option.some.inj ((runLoop_stopped hr _).symm.trans h)
      exact ⟨hr, 0, Nat.zero_le _, rfl⟩

/-- Cycles that end RUNNING began RUNNING, for a STOPPED machine has none (rule R71). -/
theorem running_of_runCycles (h : runCycles n s = .next t) (ht : t.runState = .running) : s.runState = .running := by
  cases n with
  | zero =>
    cases h
    exact ht
  | succ n =>
    obtain ⟨u, hu, -⟩ := runCycles_succ_eq_next.mp h
    exact (step_eq_next hu).1

/-- A machine that is still RUNNING after arbitrarily many cycles never ends its run (rule R81). -/
theorem runLoop_eq_none_of_running (hrun : ∀ k, ∃ m t, k ≤ m ∧ runCycles m s = .next t ∧ t.runState = .running)
    (n : Nat) : runLoop n s = none := by
  by_contra hends
  obtain ⟨t, h⟩ := Option.ne_none_iff_exists'.mp hends
  obtain ⟨ht, k, -, hk⟩ := runCycles_of_runLoop h
  obtain ⟨m, u, hle, hm, hu⟩ := hrun k
  obtain ⟨d, rfl⟩ := Nat.exists_eq_add_of_le hle
  have hrest : runCycles d t = .next u := by rw [← runCycles_add hk, hm]
  have hrunning := running_of_runCycles hrest hu
  simp [ht] at hrunning

end

/-- Settles O31: the step is the fault, so every cycle more is, and the run loop looks at `run_state` first. -/
theorem stoppedMachineHasNoCycle : Obligations.StoppedMachineHasNoCycle := by
  intro s hs
  have hstep := step_stopped hs
  exact ⟨hstep, fun n => ⟨by simp [runCycles, hstep], runLoop_stopped hs n⟩⟩

/-- Settles O32: the cycles that led to the final state are within any more fuel too, and left memory as it was. -/
theorem runEndsInAFinalStoppedState : Obligations.RunEndsInAFinalStoppedState := by
  intro n s t h
  obtain ⟨ht, k, hk, hcycles⟩ := runCycles_of_runLoop h
  refine ⟨ht, ⟨k, hk, hcycles⟩, fun m hm => runLoop_of_runCycles_le hcycles ht (hk.trans hm), ?_⟩
  simp [State.observe, ht, (runCycles_memory hcycles).2]

/-- Settles O33: the jump's cycle answers the state it began in. -/
theorem jumpToItselfNeverEnds : Obligations.JumpToItselfNeverEnds := by
  intro s addr hr h0 h1 htarget
  have hstep : step s = .next s := by
    rw [step_instr hr (decodeFrom_jmp h0 h1), exec_jmp, htarget]
  have hcycles (n : Nat) : runCycles n s = .next s := by
    induction n with
    | zero => rfl
    | succ n ih => rw [runCycles_succ_of_step hstep, ih]
  exact fun n => ⟨runLoop_eq_none_of_running (fun k => ⟨k, s, le_rfl, hcycles k, hr⟩) n, hcycles n⟩

/-! ## What the final state reports -/

section
variable {s : State}

theorem decoded_eq_hlt_iff : s.decoded = .instr .hlt ↔ s.memRead s.pc = some 0xFF#8 :=
  ⟨memRead_of_decoded_hlt, decodeFrom_hlt⟩

/-- In a STOPPED state that meets the invariant the reason is one of three, HALT exactly at a HLT byte (rules R20,
R82, R101). -/
theorem stopReason_of_inv (h : s.Inv) (hs : s.runState = .stopped) :
    (s.stopReason = .halt ∧ s.memRead s.pc = some 0xFF#8) ∨
    ((s.stopReason = .unrecognized ∨ s.stopReason = .outOfRange) ∧ s.memRead s.pc ≠ some 0xFF#8) := by
  have hreport := h.report
  rw [Ne, ← decoded_eq_hlt_iff]
  cases hreason : s.stopReason with
  | none =>
    have hrunning := h.reason_none_iff.mp hreason
    simp [hs] at hrunning
  | halt =>
    simp only [State.stopReportTrue, hreason] at hreport
    exact .inl ⟨rfl, hreport.1⟩
  | unrecognized =>
    simp only [State.stopReportTrue, hreason] at hreport
    obtain ⟨⟨op, hd⟩, -⟩ := hreport
    exact .inr ⟨.inl rfl, by simp [hd]⟩
  | outOfRange =>
    simp only [State.stopReportTrue, hreason] at hreport
    exact .inr ⟨.inr rfl, by simp [hreport]⟩

end

/-- Settles O41: the final state meets the invariant, and its memory is the first state's. -/
theorem completedExactlyAtAHaltByte : Obligations.CompletedExactlyAtAHaltByte := by
  intro n s t hs h
  obtain ⟨ht, k, -, hcycles⟩ := runCycles_of_runLoop h
  obtain ⟨hsize, hmem⟩ := runCycles_memory hcycles
  rw [← memRead_congr hsize hmem]
  rcases stopReason_of_inv (inv_of_runCycles hs hcycles) ht with ⟨hreason, h0⟩ | ⟨hreason | hreason, h0⟩ <;>
    simp [State.completed, State.faulted, ht, hreason, h0]

end Sys2Proof.Machine
end

section
/-! PROOFS. Registers do not steer control (42_control.md section 4), and what follows of it (70_reset_and_hazards.md
section 3): memory is constant, so a RUNNING machine that comes back to a `pc` differs from its earlier self in
registers alone, repeats the cycles between, and never stops; a run that stops meets no `pc` twice before its last
state. -/

namespace Sys2Proof.Machine

/-! ## Two runs that differ in registers -/

section
variable {n : Nat} {s t : State}

/-- With other registers a cycle answers the same state but for registers. -/
theorem step_withRegs (h : step s = .next t) (x' : Vector Byte 4) :
    ∃ y, step { s with x := x' } = .next { t with x := y } := by
  obtain ⟨hr, ⟨a, hd, rfl⟩ | ⟨i, hd, hexec⟩⟩ := step_eq_next h
  · exact ⟨x', step_outOfRange (s := { s with x := x' }) hr hd⟩
  · obtain ⟨u, hu⟩ := exec_total i { s with x := x' }
    refine ⟨u.x, ?_⟩
    rw [← exec_withRegs hexec hu]
    exact (step_instr (s := { s with x := x' }) hr hd).trans hu

/-- With other registers any number of cycles answers the same state but for registers. -/
theorem runCycles_withRegs (h : runCycles n s = .next t) (x' : Vector Byte 4) :
    ∃ y, runCycles n { s with x := x' } = .next { t with x := y } := by
  induction n generalizing s x' with
  | zero =>
    cases h
    exact ⟨x', rfl⟩
  | succ n ih =>
    obtain ⟨u, hu, h⟩ := runCycles_succ_eq_next.mp h
    obtain ⟨y, hy⟩ := step_withRegs hu x'
    rw [runCycles_succ_of_step hy]
    exact ih h y

/-- Cycles are refused nothing: they answer a next state or met a STOPPED machine (rules R71, R132). -/
theorem runCycles_next_or_fault (n : Nat) (s : State) :
    (∃ t, runCycles n s = .next t) ∨ runCycles n s = .fault .stopped := by
  induction n generalizing s with
  | zero => exact .inl ⟨s, rfl⟩
  | succ n ih =>
    cases hr : s.runState with
    | running =>
      obtain ⟨t, ht⟩ := step_total hr
      rw [runCycles_succ_of_step ht]
      exact ih t
    | stopped => exact .inr ((stoppedMachineHasNoCycle s hr).2 n).1

/-- Where cycles find a STOPPED machine they do so whatever the registers hold. -/
theorem runCycles_withRegs_fault (h : runCycles n s = .fault .stopped) (x' : Vector Byte 4) :
    runCycles n { s with x := x' } = .fault .stopped := by
  refine (runCycles_next_or_fault n _).resolve_left fun ⟨u, hu⟩ => ?_
  obtain ⟨y, hy⟩ := runCycles_withRegs hu s.x
  cases h.symm.trans hy

end

/-- Settles O36: where the one run answers a next state so does the other, and where it meets a STOPPED machine so does
the other. -/
theorem registersDoNotSteerControl : Obligations.RegistersDoNotSteerControl := by
  intro n s x'
  rcases runCycles_next_or_fault n s with ⟨t, ht⟩ | hfault
  · obtain ⟨y, hy⟩ := runCycles_withRegs ht x'
    simp only [ht, hy]
  · simp only [hfault, runCycles_withRegs_fault hfault x']

/-! ## Coming back to a `pc` -/

section
variable {n : Nat} {s t : State}

/-- Cycles that end RUNNING changed registers and `pc` alone. -/
theorem runCycles_eq_running (h : runCycles n s = .next t) (ht : t.runState = .running) :
    t = { s with x := t.x, pc := t.pc } := by
  induction n generalizing s with
  | zero =>
    cases h
    rfl
  | succ n ih =>
    obtain ⟨u, hu, h⟩ := runCycles_succ_eq_next.mp h
    obtain ⟨hframe, -⟩ := step_eq_running hu (running_of_runCycles h ht)
    have htail := ih h
    rw [hframe] at htail
    exact htail

/-- Cycles that come back to their `pc` answer the state they began in but for registers, so they can be repeated any
number of times. -/
theorem runCycles_mul_of_revisit (h : runCycles n s = .next t) (ht : t.runState = .running) (hpc : t.pc = s.pc)
    (j : Nat) : ∃ y, runCycles (n * j) s = .next { s with x := y } := by
  have hback : t = { s with x := t.x } := by
    have hframe := runCycles_eq_running h ht
    rwa [hpc] at hframe
  induction j with
  | zero => exact ⟨s.x, rfl⟩
  | succ j ih =>
    obtain ⟨y, hy⟩ := ih
    obtain ⟨z, hz⟩ := runCycles_withRegs h y
    rw [hback] at hz
    exact ⟨z, by rw [Nat.mul_succ, runCycles_add hy, hz]⟩

end

/-- Settles O34: repeated often enough the cycles are more than any number, and the machine is still RUNNING. -/
theorem revisitedPcNeverEnds : Obligations.RevisitedPcNeverEnds := by
  intro n s t hn h ht hpc
  have hs : s.runState = .running := running_of_runCycles h ht
  refine runLoop_eq_none_of_running fun k => ?_
  obtain ⟨y, hy⟩ := runCycles_mul_of_revisit h ht hpc k
  exact ⟨n * k, _, Nat.le_mul_of_pos_left k hn, hy, hs⟩

/-! ## The bound on a run that stops -/

/-- A run that stops does not meet a `pc` twice before its last state. -/
theorem pc_ne_of_runCycles_stopped {i j m : Nat} {s u v t : State} (hij : i < j) (hi : runCycles i s = .next u)
    (hj : runCycles j s = .next v) (hv : v.runState = .running) (hend : runCycles m v = .next t)
    (ht : t.runState = .stopped) : u.pc ≠ v.pc := by
  intro hpc
  obtain ⟨d, rfl⟩ := Nat.exists_eq_add_of_lt hij
  rw [Nat.add_assoc, runCycles_add hi] at hj
  have hnever := revisitedPcNeverEnds (d + 1) u v (Nat.le_add_left ..) hj hv hpc.symm (d + 1 + m)
  have hends : runLoop (d + 1 + m) u = some t := runLoop_of_runCycles ((runCycles_add hj).trans hend) ht
  simp [hnever] at hends

/-- Before its last state a run is RUNNING, at a `pc` in the invariant's range. -/
theorem exists_running_before {i k : Nat} {s t : State} (hs : s.Inv) (h : runCycles k s = .next t) (hik : i < k) :
    ∃ u m, runCycles i s = .next u ∧ u.runState = .running ∧ u.pc < max s.memSize 255 + 1 ∧
      runCycles m u = .next t := by
  obtain ⟨d, rfl⟩ := Nat.exists_eq_add_of_lt hik
  obtain ⟨u, hu, hrest⟩ := runCycles_prefix (n := i) (m := d + 1) h
  obtain ⟨v, hv, -⟩ := runCycles_succ_eq_next.mp hrest
  have hpc := (inv_of_runCycles hs hu).pc_le
  rw [(runCycles_memory hu).1] at hpc
  exact ⟨u, d + 1, hu, (step_eq_next hv).1, Nat.lt_succ_of_le hpc, hrest⟩

/-- A run of more than `max(MEM_SIZE, 255) + 1` cycles would meet more states before its last one than there are `pc`
values. -/
theorem cycles_le_of_stopped {k : Nat} {s t : State} (hs : s.Inv) (h : runCycles k s = .next t)
    (ht : t.runState = .stopped) : k ≤ max s.memSize 255 + 1 := by
  choose u m hu hrunning hpc hrest using fun i : Fin k => exists_running_before hs h i.isLt
  have hinj : Function.Injective fun i => (⟨(u i).pc, hpc i⟩ : Fin (max s.memSize 255 + 1)) := by
    refine .of_lt_imp_ne fun i j hij heq => ?_
    exact pc_ne_of_runCycles_stopped hij (hu i) (hu j) (hrunning j) (hrest j) ht (Fin.val_eq_of_eq heq)
  simpa using Fintype.card_le_of_injective _ hinj

/-- Settles O35: the cycles that led to the final state are within the bound. -/
theorem stoppingRunIsBounded : Obligations.StoppingRunIsBounded := by
  intro n s t hs h
  obtain ⟨ht, k, -, hcycles⟩ := runCycles_of_runLoop h
  exact runLoop_of_runCycles_le hcycles ht (cycles_le_of_stopped hs hcycles ht)

end Sys2Proof.Machine
end
